-- ==== Sys2Proof/Word.lean ====
section
/-! DEFINITION. The two word types of the block and nothing else: a byte (u8, R10) and the 16-bit word of the
command port, of the CRC register, of the response register and of the measured inputs. -/

namespace Sys2Proof

/-- A byte, u8 (R10). -/
abbrev Byte := BitVec 8

/-- A 16-bit word: a command word (R80), crc (R24), rsp (R22), a CRC_TABLE entry (R25), a current sample (R44). -/
abbrev Word := BitVec 16

end Sys2Proof
end

