-- ==== Sys2Proof/Config.lean ====
section
/-! DEFINITION. The parameters of the block (R8, R9). A `Config` is fixed for a model instance: no operation and no
reset changes it. The parameters the spec leaves OPEN have no value here: `Config.chosen` is opaque, so nothing can be
proved of an instance's values beyond the constraints R9 puts on them (`Config.Wf`). The parameters for which R9 gives
a default take that default in `Config.block`, the instance that `State.reset` stands in. `Config.ref` is the reference
configuration of 95_test_vectors.md section 1, for vectors and tests only. -/

namespace Sys2Proof

/-- Four header bytes, CMD_HDR[0..3] or TLM_HDR[0..3] (R93, R98). -/
structure Header where
  b0 : Byte
  b1 : Byte
  b2 : Byte
  b3 : Byte
deriving DecidableEq, Repr

def Header.toList (h : Header) : List Byte := [h.b0, h.b1, h.b2, h.b3]

/-- One field group of TLM_LAYOUT (R36): a count of elements, a byte width per element, a signedness flag. Its name is
the field of `TlmLayout` it stands in. -/
structure TlmGroup where
  count  : Nat
  width  : Nat
  signed : Bool
deriving DecidableEq, Repr

/-- One of the four per-motor fields of group 4 (R140): one element for each motor. -/
structure TlmField where
  width  : Nat
  signed : Bool
deriving DecidableEq, Repr

/-- TLM_LAYOUT (R36, R140): the thirteen groups in the fixed order of R140; group 4 is the per-motor group, given by
its four fields voltage, clicks, current, temperature. -/
structure TlmLayout where
  voltage          : TlmGroup
  chargeState      : TlmGroup
  bankVoltage      : TlmGroup
  motorVoltage     : TlmField
  motorClicks      : TlmField
  motorCurrent     : TlmField
  motorTemperature : TlmField
  accel            : TlmGroup
  mag              : TlmGroup
  gyro             : TlmGroup
  distance         : TlmGroup
  light            : TlmGroup
  thermal          : TlmGroup
  errorRegister    : TlmGroup
  lastCommandRead  : TlmGroup
  status           : TlmGroup
deriving DecidableEq, Repr

/-- The twelve groups that are not per motor, in the order of R140. -/
def TlmLayout.groups (l : TlmLayout) : List TlmGroup :=
  [l.voltage, l.chargeState, l.bankVoltage, l.accel, l.mag, l.gyro, l.distance, l.light, l.thermal,
   l.errorRegister, l.lastCommandRead, l.status]

/-- The four per-motor fields, in the order of R99. -/
def TlmLayout.motorFields (l : TlmLayout) : List TlmField :=
  [l.motorVoltage, l.motorClicks, l.motorCurrent, l.motorTemperature]

/-- BODY_LEN (R100): the sum over the groups of count times width, and for the per-motor group the sum of its four
fields' widths times 3. -/
def TlmLayout.bodyLen (l : TlmLayout) : Nat :=
  (l.groups.map fun g => g.count * g.width).sum + 3 * (l.motorFields.map TlmField.width).sum

/-- The parameters of R9, less CRC_TABLE (the array `State.crcTable`, R25) and CRC_POLY (the argument of
`generatedTable`, R113). N_MOTORS = 3 is the type `Motor`. -/
structure Config where
  crcInit           : Word
  cmdHdr            : Header
  tlmHdr            : Header
  resyncRecheck     : Bool
  rxBufCap          : Nat
  decodeBound       : Nat
  ledCustom         : Byte
  modeEnCharging    : Byte
  modeEnVref        : Byte
  modeEnAmp         : Byte
  modeWheelSpace    : Byte
  modeXythetaSpace  : Byte
  modeWheelVoltage  : Byte
  modeMotorExit     : Byte
  modeDisCharging   : Byte
  modeDisVref       : Byte
  modeDisAmp        : Byte
  tlmLayout         : TlmLayout
  tlmBigEndian      : Bool
  kp                : Int
  kd                : Int
  kps               : Int
  kis               : Int
  kds               : Int
  neutralClears     : Bool
  iLimit            : Nat
  iLimitScale       : Nat
  clFactor          : Nat
  pNominal          : Nat
  decayMax          : Nat
  deadtimeFromZero  : Bool
deriving DecidableEq, Repr

/-- The ten mode codes the spec names (R9): the three enable codes first. -/
def Config.modes (c : Config) : List Byte :=
  [c.modeEnCharging, c.modeEnVref, c.modeEnAmp, c.modeWheelSpace, c.modeXythetaSpace, c.modeWheelVoltage,
   c.modeMotorExit, c.modeDisCharging, c.modeDisVref, c.modeDisAmp]

/-- 48 ≤ RX_BUF_CAP ≤ 32767 (R9). -/
abbrev Config.RxBufCapOk (c : Config) : Prop := 48 ≤ c.rxBufCap ∧ c.rxBufCap ≤ 32767

/-- 48 ≤ DECODE_BOUND ≤ RX_BUF_CAP (R9). -/
abbrev Config.DecodeBoundOk (c : Config) : Prop := 48 ≤ c.decodeBound ∧ c.decodeBound ≤ c.rxBufCap

/-- The mode codes are pairwise distinct (R9). -/
abbrev Config.ModesOk (c : Config) : Prop := c.modes.Nodup

/-- I_LIMIT ≤ 65535, I_LIMIT_SCALE ≥ 1, DECAY_MAX ≥ 1 (R9). -/
abbrev Config.LimitsOk (c : Config) : Prop := c.iLimit ≤ 65535 ∧ 1 ≤ c.iLimitScale ∧ 1 ≤ c.decayMax

/-- Every group has n ≥ 1 and w ≥ 1, and so has every per-motor field (R36). -/
abbrev TlmLayout.SizesOk (l : TlmLayout) : Prop :=
  (∀ g ∈ l.groups, 1 ≤ g.count ∧ 1 ≤ g.width) ∧ ∀ f ∈ l.motorFields, 1 ≤ f.width

/-- The sizes the source fixes (R36, R140): three battery-bank voltages and one 32-bit error register. -/
abbrev TlmLayout.FixedOk (l : TlmLayout) : Prop :=
  l.bankVoltage.count = 3 ∧ l.errorRegister.count = 1 ∧ l.errorRegister.width = 4

/-- The frame length fits rsp: 6 + BODY_LEN ≤ 65535 (R141). -/
abbrev TlmLayout.LengthOk (l : TlmLayout) : Prop := 6 + l.bodyLen ≤ 65535

/-- The constraints R9, R36 and R141 put on the parameters, all of them. -/
abbrev Config.Wf (c : Config) : Prop :=
  c.RxBufCapOk ∧ c.DecodeBoundOk ∧ c.ModesOk ∧ c.LimitsOk ∧
    c.tlmLayout.SizesOk ∧ c.tlmLayout.FixedOk ∧ c.tlmLayout.LengthOk

/-- The reference layout of 95_test_vectors.md section 1 (BODY_LEN = 40). -/
def TlmLayout.ref : TlmLayout where
  voltage          := ⟨1, 1, false⟩
  chargeState      := ⟨1, 1, false⟩
  bankVoltage      := ⟨3, 1, false⟩
  motorVoltage     := ⟨1, false⟩
  motorClicks      := ⟨1, true⟩
  motorCurrent     := ⟨1, false⟩
  motorTemperature := ⟨1, false⟩
  accel            := ⟨3, 2, true⟩
  mag              := ⟨3, 2, true⟩
  gyro             := ⟨1, 2, true⟩
  distance         := ⟨1, 1, false⟩
  light            := ⟨1, 1, false⟩
  thermal          := ⟨1, 1, false⟩
  errorRegister    := ⟨1, 4, false⟩
  lastCommandRead  := ⟨1, 1, false⟩
  status           := ⟨1, 1, false⟩

/-- REF, the reference configuration of 95_test_vectors.md section 1 (D51). It is no claim about the hardware. -/
def Config.ref : Config where
  crcInit          := 0x0000#16
  cmdHdr           := ⟨0xAA#8, 0x55#8, 0xC3#8, 0x3C#8⟩
  tlmHdr           := ⟨0x5A#8, 0xA5#8, 0x96#8, 0x69#8⟩
  resyncRecheck    := false
  rxBufCap         := 64
  decodeBound      := 64
  ledCustom        := 0x01#8
  modeEnCharging   := 0x10#8
  modeEnVref       := 0x12#8
  modeEnAmp        := 0x14#8
  modeWheelSpace   := 0x01#8
  modeXythetaSpace := 0x02#8
  modeWheelVoltage := 0x03#8
  modeMotorExit    := 0x04#8
  modeDisCharging  := 0x11#8
  modeDisVref      := 0x13#8
  modeDisAmp       := 0x15#8
  tlmLayout        := TlmLayout.ref
  tlmBigEndian     := true
  kp               := 4
  kd               := 2
  kps              := 4
  kis              := 1
  kds              := 2
  neutralClears    := false
  iLimit           := 500
  iLimitScale      := 16
  clFactor         := 16
  pNominal         := 10000
  decayMax         := 5
  deadtimeFromZero := true

theorem Config.ref_wf : Config.ref.Wf := by decide

/-- Some instance's parameters, OPEN (R9): opaque and without a body, so no proof can see a value of it. The argument
only shows that parameters which meet R9's constraints exist; it gives the constant no value. -/
opaque Config.chosen [_inh : Inhabited { c : Config // c.Wf }] : { c : Config // c.Wf }

/-- The OPEN parameters of the instance, any that meet R9's constraints. -/
def Config.openPart : { c : Config // c.Wf } := Config.chosen (_inh := ⟨⟨Config.ref, Config.ref_wf⟩⟩)

/-- The instance `State.reset` stands in: every OPEN parameter as `Config.openPart` has it (any value R9 allows), every
parameter with a default at the default of R9. -/
def Config.block : Config :=
  { Config.openPart.val with
    crcInit          := 0x0000#16
    resyncRecheck    := false
    rxBufCap         := 64
    decodeBound      := 64
    tlmBigEndian     := true
    neutralClears    := false
    clFactor         := Config.openPart.val.iLimitScale
    deadtimeFromZero := true }

/-- The contents of CRC_TABLE, OPEN (R9, R25, D5): any 256 entries. -/
opaque Config.crcTable : Vector Word 256

/-- A telemetry element that a value on TLM_IN does not list. A TelemetrySample lists every element (R36), so this is
read only where the port holds no value of its type. The value is free (R70), indexed by the group of R140 and the
element. -/
opaque Config.undrivenElement : Nat → Nat → Int

end Sys2Proof
end

