-- ==== Sys2Proof/Syntax.lean ====
section
/-! DEFINITION. The operations of the block: one constructor of `Instr` for each row of spec/opcode_table.json
(R82 to R85), its operands as R86 makes them from the command word. A motor index is one of three names and a law one
of three names, so the reserved codes m = 3 (R81) and law = 3 (R88) are no operand: a command word that holds one
decodes to no operation. -/

namespace Sys2Proof

/-- The motor-loop unit an operation acts on: m = 0, 1, 2 (R2, R81). -/
inductive Motor where
  | m0
  | m1
  | m2
deriving DecidableEq, Repr

/-- The law select of a motor-loop unit (R39): 0 DIRECT, 1 PD, 2 PID. Value 3 is never held. -/
inductive Law where
  | direct
  | pd
  | pid
deriving DecidableEq, Repr

/-- One operation of the block (R80). -/
inductive Instr where
  /-- CRC.INIT (R111). -/
  | crcInit
  /-- CRC.UPDATE b (R112). -/
  | crcUpdate (b : Byte)
  /-- CRC.READ (R114). -/
  | crcRead
  /-- PROT.RXPUSH b (R120). -/
  | protRxpush (b : Byte)
  /-- PROT.DECODE (R128). -/
  | protDecode
  /-- PROT.TAKE (R132). -/
  | protTake
  /-- PROT.SETGATE g (R134). -/
  | protSetgate (g : Bool)
  /-- PROT.ENCODE (R141). -/
  | protEncode
  /-- PROT.TXDONE (R144). -/
  | protTxdone
  /-- SYS.NOP (R200). -/
  | sysNop
  /-- SYS.STATUS (R201). -/
  | sysStatus
  /-- MOT.SETSP m, s (R160): the setpoint s is s8, held as its two's complement byte (R10). -/
  | motSetsp (m : Motor) (s : BitVec 8)
  /-- MOT.SETLAW m, law (R161). -/
  | motSetlaw (m : Motor) (law : Law)
  /-- MOT.TICK m (R175). -/
  | motTick (m : Motor)
  /-- MOT.DIRECT m (R167). -/
  | motDirect (m : Motor)
  /-- MOT.PD m (R164). -/
  | motPd (m : Motor)
  /-- MOT.PID m (R166). -/
  | motPid (m : Motor)
  /-- MOT.CLIM m (R169). -/
  | motClim (m : Motor)
  /-- MOT.PLIM m (R171). -/
  | motPlim (m : Motor)
  /-- MOT.ACT m (R174). -/
  | motAct (m : Motor)
deriving DecidableEq, Repr

end Sys2Proof
end

