-- ==== Sys2Proof/WellFormed.lean ====
section
/-! DEFINITION. Which command words are operations and which are reserved (R81 to R88), said from the rules' tables and
not from the decoder, one check for each ground of R88. An `Instr` needs no check of its own: its operand types hold
exactly the values R86 can make, so every `Instr` is well-formed. The checks on an instance's parameters (R9) stand
beside them in Config.lean (`Config.Wf`). -/

namespace Sys2Proof

/-- UNIT, bits 15:12 (R80). -/
def unitNumber (w : Word) : Nat := w.toNat / 4096

/-- OP, bits 11:8 (R80). -/
def opNumber (w : Word) : Nat := w.toNat / 256 % 16

/-- IMM8, bits 7:0 (R80). -/
def immNumber (w : Word) : Nat := w.toNat % 256

/-- The UNIT names a unit: 0 CRC, 1 protocol, 2 system, 8 to 10 the motor-loop units (R81). -/
def unitExists (w : Word) : Bool := [0, 1, 2, 8, 9, 10].contains (unitNumber w)

/-- How many operations a unit has, from OP 0 on (R82 to R85). -/
def opCount (unit : Nat) : Nat :=
  if unit = 0 then 3 else if unit = 1 then 6 else if unit = 2 then 2 else if 8 ≤ unit ∧ unit ≤ 10 then 9 else 0

/-- The OP is one of its unit's operations (R82 to R85). -/
def opExists (w : Word) : Bool := opNumber w < opCount (unitNumber w)

/-- One more than the greatest IMM8 that sets no bit the operation leaves unused (R86, R87): the used bits are the low
ones in every operation. -/
def immLimit (unit op : Nat) : Nat :=
  if unit = 0 ∧ op = 1 then 256            -- CRC.UPDATE b
  else if unit = 1 ∧ op = 0 then 256       -- PROT.RXPUSH b
  else if unit = 1 ∧ op = 3 then 2         -- PROT.SETGATE g
  else if 8 ≤ unit ∧ op = 0 then 256       -- MOT.SETSP m, s
  else if 8 ≤ unit ∧ op = 1 then 4         -- MOT.SETLAW m, law
  else 1

/-- No IMM8 bit that the operation does not use is 1 (R87). -/
def immAllowed (w : Word) : Bool := immNumber w < immLimit (unitNumber w) (opNumber w)

/-- The word is not MOT.SETLAW with IMM8[1:0] = 3 (R88). -/
def lawAllowed (w : Word) : Bool := !(8 ≤ unitNumber w && opNumber w == 1 && immNumber w % 4 == 3)

/-- The word is an operation: none of the grounds of R88 holds. -/
def isOperation (w : Word) : Bool := unitExists w && opExists w && immAllowed w && lawAllowed w

/-- The word is reserved (R88). -/
def isReserved (w : Word) : Bool := !isOperation w

end Sys2Proof
end

