-- ==== Sys2Proof/Decode.lean ====
section
/-! DEFINITION. The decoder of command words (R80 to R90), total on all 65536 words and refusing a reserved one by the
ground of R88, and after it the encoder, written from the same tables, and each row of spec/opcode_table.json as a mask
and a match. -/

namespace Sys2Proof

/-- The ground on which a command word is reserved (R88), in the decode order of R90. -/
inductive ReservedWord where
  /-- Its UNIT is reserved (R81). -/
  | unit
  /-- Its OP is reserved for its unit (R82 to R85). -/
  | op
  /-- An IMM8 bit that the operation does not use is 1 (R87). -/
  | imm
  /-- It is MOT.SETLAW with law 3 (R88). -/
  | law
deriving DecidableEq, Repr

/-- UNIT = word[15:12] (R80). -/
def unitField (w : Word) : BitVec 4 := w.extractLsb' 12 4

/-- OP = word[11:8] (R80). -/
def opField (w : Word) : BitVec 4 := w.extractLsb' 8 4

/-- IMM8 = word[7:0] (R80). -/
def immField (w : Word) : Byte := w.extractLsb' 0 8

/-- An operation without operands: its IMM8 must be 0x00 (R87). -/
def decodePlain (imm : Byte) (i : Instr) : Except ReservedWord Instr :=
  if imm = 0x00#8 then .ok i else .error .imm

/-- PROT.SETGATE: bit 0 is g, bits 7:1 must be 0 (R83, R86). -/
def decodeGate (imm : Byte) : Except ReservedWord Instr :=
  if imm.extractLsb' 1 7 = 0#7 then .ok (.protSetgate (imm.getLsbD 0)) else .error .imm

/-- The law codes (R39): 0 DIRECT, 1 PD, 2 PID; 3 is none. -/
def decodeLawCode (code : BitVec 2) : Option Law :=
  if code = 0#2 then some .direct else if code = 1#2 then some .pd else if code = 2#2 then some .pid else none

/-- MOT.SETLAW: bits 1:0 are the law, bits 7:2 must be 0, law 3 is reserved (R85, R86, R88). -/
def decodeSetlaw (m : Motor) (imm : Byte) : Except ReservedWord Instr :=
  if imm.extractLsb' 2 6 = 0#6 then
    match decodeLawCode (imm.extractLsb' 0 2) with
    | some law => .ok (.motSetlaw m law)
    | none => .error .law
  else .error .imm

/-- The operations of the CRC unit (R82). -/
def decodeCrc (op : BitVec 4) (imm : Byte) : Except ReservedWord Instr :=
  match op.toNat with
  | 0x0 => decodePlain imm .crcInit
  | 0x1 => .ok (.crcUpdate imm)
  | 0x2 => decodePlain imm .crcRead
  | _ => .error .op

/-- The operations of the protocol unit (R83). -/
def decodeProt (op : BitVec 4) (imm : Byte) : Except ReservedWord Instr :=
  match op.toNat with
  | 0x0 => .ok (.protRxpush imm)
  | 0x1 => decodePlain imm .protDecode
  | 0x2 => decodePlain imm .protTake
  | 0x3 => decodeGate imm
  | 0x4 => decodePlain imm .protEncode
  | 0x5 => decodePlain imm .protTxdone
  | _ => .error .op

/-- The system operations (R84). -/
def decodeSys (op : BitVec 4) (imm : Byte) : Except ReservedWord Instr :=
  match op.toNat with
  | 0x0 => decodePlain imm .sysNop
  | 0x1 => decodePlain imm .sysStatus
  | _ => .error .op

/-- The operations of motor-loop unit m (R85). -/
def decodeMot (m : Motor) (op : BitVec 4) (imm : Byte) : Except ReservedWord Instr :=
  match op.toNat with
  | 0x0 => .ok (.motSetsp m imm)
  | 0x1 => decodeSetlaw m imm
  | 0x2 => decodePlain imm (.motTick m)
  | 0x3 => decodePlain imm (.motDirect m)
  | 0x4 => decodePlain imm (.motPd m)
  | 0x5 => decodePlain imm (.motPid m)
  | 0x6 => decodePlain imm (.motClim m)
  | 0x7 => decodePlain imm (.motPlim m)
  | 0x8 => decodePlain imm (.motAct m)
  | _ => .error .op

/-- Decode one command word: UNIT, then OP, then the IMM8 constraints (R81, R90). -/
def decode (w : Word) : Except ReservedWord Instr :=
  match (unitField w).toNat with
  | 0x0 => decodeCrc (opField w) (immField w)
  | 0x1 => decodeProt (opField w) (immField w)
  | 0x2 => decodeSys (opField w) (immField w)
  | 0x8 => decodeMot .m0 (opField w) (immField w)
  | 0x9 => decodeMot .m1 (opField w) (immField w)
  | 0xA => decodeMot .m2 (opField w) (immField w)
  | _ => .error .unit

/-- The instruction the decoder reads from the bits `w` of a row of spec/opcode_table.json. A command word is 16 bits on
a parallel port, taken whole (R67), so the table's numbering is the word's own; no row is longer. -/
def decodeTableWord (_nbits w : Nat) : Option Instr :=
  if w < 65536 then (decode (BitVec.ofNat 16 w)).toOption else none

/-! ### The encoder -/

/-- The UNIT of motor-loop unit m: 0x8 + m (R81). -/
def Motor.unitCode : Motor → BitVec 4
  | .m0 => 0x8#4
  | .m1 => 0x9#4
  | .m2 => 0xA#4

/-- The law codes (R39). -/
def Law.code : Law → BitVec 2
  | .direct => 0#2
  | .pd => 1#2
  | .pid => 2#2

/-- A command word from its three fields (R80). -/
def commandWord (unit op : BitVec 4) (imm : Byte) : Word := unit ++ op ++ imm

/-- The command word of an operation (R82 to R86). -/
def encode : Instr → Word
  | .crcInit => commandWord 0x0#4 0x0#4 0x00#8
  | .crcUpdate b => commandWord 0x0#4 0x1#4 b
  | .crcRead => commandWord 0x0#4 0x2#4 0x00#8
  | .protRxpush b => commandWord 0x1#4 0x0#4 b
  | .protDecode => commandWord 0x1#4 0x1#4 0x00#8
  | .protTake => commandWord 0x1#4 0x2#4 0x00#8
  | .protSetgate g => commandWord 0x1#4 0x3#4 (0#7 ++ BitVec.ofBool g)
  | .protEncode => commandWord 0x1#4 0x4#4 0x00#8
  | .protTxdone => commandWord 0x1#4 0x5#4 0x00#8
  | .sysNop => commandWord 0x2#4 0x0#4 0x00#8
  | .sysStatus => commandWord 0x2#4 0x1#4 0x00#8
  | .motSetsp m s => commandWord m.unitCode 0x0#4 s
  | .motSetlaw m law => commandWord m.unitCode 0x1#4 (0#6 ++ law.code)
  | .motTick m => commandWord m.unitCode 0x2#4 0x00#8
  | .motDirect m => commandWord m.unitCode 0x3#4 0x00#8
  | .motPd m => commandWord m.unitCode 0x4#4 0x00#8
  | .motPid m => commandWord m.unitCode 0x5#4 0x00#8
  | .motClim m => commandWord m.unitCode 0x6#4 0x00#8
  | .motPlim m => commandWord m.unitCode 0x7#4 0x00#8
  | .motAct m => commandWord m.unitCode 0x8#4 0x00#8

/-- The row of spec/opcode_table.json an operation belongs to: its mask and its match, copied from the table. -/
def Instr.tableRow : Instr → Word × Word
  | .crcInit => (0xFFFF#16, 0x0000#16)
  | .crcUpdate _ => (0xFF00#16, 0x0100#16)
  | .crcRead => (0xFFFF#16, 0x0200#16)
  | .protRxpush _ => (0xFF00#16, 0x1000#16)
  | .protDecode => (0xFFFF#16, 0x1100#16)
  | .protTake => (0xFFFF#16, 0x1200#16)
  | .protSetgate _ => (0xFFFE#16, 0x1300#16)
  | .protEncode => (0xFFFF#16, 0x1400#16)
  | .protTxdone => (0xFFFF#16, 0x1500#16)
  | .sysNop => (0xFFFF#16, 0x2000#16)
  | .sysStatus => (0xFFFF#16, 0x2100#16)
  | .motSetsp _ _ => (0xCF00#16, 0x8000#16)
  | .motSetlaw _ _ => (0xCFFC#16, 0x8100#16)
  | .motTick _ => (0xCFFF#16, 0x8200#16)
  | .motDirect _ => (0xCFFF#16, 0x8300#16)
  | .motPd _ => (0xCFFF#16, 0x8400#16)
  | .motPid _ => (0xCFFF#16, 0x8500#16)
  | .motClim _ => (0xCFFF#16, 0x8600#16)
  | .motPlim _ => (0xCFFF#16, 0x8700#16)
  | .motAct _ => (0xCFFF#16, 0x8800#16)

end Sys2Proof
end

