-- ==== Sys2Proof/Machine/State.lean ====
section
/-! DEFINITION. The state of the block as plain data: every element of R20 (10_state.md), and the model's own fields
that hold what stands outside the block: the instance's parameters, the values on the input ports, the command port's
queue and the event sequence of cmd_out. `State.reset` is the table of R231. -/

namespace Sys2Proof.Machine

/-! ### The protocol unit's data -/

/-- The parser state (R26). Codes 6 and 7 are never held. -/
inductive PState where
  | header1
  | header2
  | header3
  | header4
  | motorData
  | ledData
deriving DecidableEq, Repr

/-- One LED triple (R29, R95). -/
structure Rgb where
  r : Byte
  g : Byte
  b : Byte
deriving DecidableEq, Repr

/-- The frame under construction (R28). m1, m2, m3 are s8, held as their two's complement bytes (R10). -/
structure WorkFrame where
  motorMode : Byte
  m1        : BitVec 8
  m2        : BitVec 8
  m3        : BitVec 8
  ledMode   : Byte
deriving DecidableEq, Repr

/-- A CommandFrame value (R29). led_data, when present, is 16 triples; the state invariant `ProtInv` says so. -/
structure CommandFrame where
  motorMode : Byte
  m1        : BitVec 8
  m2        : BitVec 8
  m3        : BitVec 8
  ledMode   : Byte
  ledData   : Option (List Rgb)
deriving DecidableEq, Repr

/-- The motor part of a cmd_out event (R37, R103). -/
inductive MotorPart where
  | suppressed
  | forward (motorMode : Byte) (m1 m2 m3 : BitVec 8)
deriving DecidableEq, Repr

/-- One event on the output port cmd_out (R37, R103). -/
structure CmdOutEvent where
  motor   : MotorPart
  ledMode : Byte
  ledData : Option (List Rgb)
deriving DecidableEq, Repr

/-! ### The motor-loop unit's data -/

/-- last_direction, one of -1, 0, +1 (R46). -/
inductive Direction where
  | negative
  | zero
  | positive
deriving DecidableEq, Repr

/-- The state of one motor-loop unit (R20, R38 to R48) with its sticky bit ARITH_RANGE[m] (R33). -/
structure MotorUnit where
  setpoint      : BitVec 8
  law           : Law
  lastError     : Int
  integralError : Int
  acc           : Int
  correction    : Int
  ring          : Vector Word 100
  ringIdx       : Fin 100
  decayCounter  : Nat
  lastDirection : Direction
  v             : Int
  dutyA         : Nat
  dutyB         : Nat
  arithRange    : Bool
deriving DecidableEq, Repr

/-! ### What stands outside the block -/

/-- The four per-motor elements of a telemetry sample (R140, group 4). -/
structure MotorSample where
  voltage     : Int
  clicks      : Int
  current     : Int
  temperature : Int
deriving DecidableEq, Repr

/-- A TelemetrySample (R36): the elements of each group of R140, in index order. -/
structure TelemetrySample where
  voltage         : List Int
  chargeState     : List Int
  bankVoltage     : List Int
  motor0          : MotorSample
  motor1          : MotorSample
  motor2          : MotorSample
  accel           : List Int
  mag             : List Int
  gyro            : List Int
  distance        : List Int
  light           : List Int
  thermal         : List Int
  errorRegister   : List Int
  lastCommandRead : List Int
  status          : List Int
deriving DecidableEq, Repr

/-- The values on the input ports of one motor-loop unit (R49): u16, s16 (its two's complement word), u16. -/
structure MotorPorts where
  measCurrent : Word
  measClicks  : Word
  busVoltage  : Word
deriving DecidableEq, Repr

/-- The values the environment drives on the input ports while an operation runs (R36, R49, R70). -/
structure InPorts where
  tlmIn  : TelemetrySample
  motor0 : MotorPorts
  motor1 : MotorPorts
  motor2 : MotorPorts
deriving DecidableEq, Repr

/-- Who issues an operation (R61). The block does not look at it. -/
inductive Agent where
  | tick
  | receive
  | transport
deriving DecidableEq, Repr

/-- One command word on the command port, the agent that issued it and the port values that hold while it runs. -/
structure Issue where
  agent : Agent
  word  : Word
  ports : InPorts
deriving DecidableEq, Repr

/-- What the command port brings next, in the order of R60: a command word, or the event RESET (R230). -/
inductive PortEvent where
  | command (c : Issue)
  | reset
deriving DecidableEq, Repr

/-! ### The state -/

/-- The machine's state. -/
structure State where
  /-- The parameters (R9), fixed for the instance. The model's own field. -/
  cfg          : Config
  /-- CRC_TABLE (R25), read-only. -/
  crcTable     : Vector Word 256
  /-- crc (R24). -/
  crc          : Word
  /-- pstate (R26). -/
  pstate       : PState
  /-- rx_fifo (R27), oldest byte first. -/
  rxFifo       : List Byte
  /-- work (R28). -/
  work         : WorkFrame
  /-- staged (R30). -/
  staged       : CommandFrame
  /-- staged_valid (R30). -/
  stagedValid  : Bool
  /-- cmd_disabled (R31). -/
  cmdDisabled  : Bool
  /-- tx_buf (R32), first byte on the wire first. -/
  txBuf        : List Byte
  /-- tx_busy (R32). -/
  txBusy       : Bool
  /-- rsp (R22). -/
  rsp          : Word
  /-- ILLEGAL_CMD (R33). -/
  illegalCmd   : Bool
  /-- RX_OVERFLOW (R33). -/
  rxOverflow   : Bool
  /-- Motor-loop unit 0 (R38 to R48). -/
  motor0       : MotorUnit
  /-- Motor-loop unit 1. -/
  motor1       : MotorUnit
  /-- Motor-loop unit 2. -/
  motor2       : MotorUnit
  /-- The event sequence of cmd_out (R13, R37), oldest first. The model's own field. -/
  cmdOut       : List CmdOutEvent
  /-- The values on the input ports (R36, R49). The model's own field: free inputs of the step (R70). -/
  ports        : InPorts
  /-- The command port's queue (R60), next first. The model's own field. -/
  pending      : List PortEvent
deriving DecidableEq, Repr

/-! ### Faults of the block and outcomes of the model -/

/-- The kinds of `raise Fault(kind, info)` (R210, R214). They are effects on the state and stop nothing. -/
inductive FaultKind where
  /-- A reserved command word (R211). -/
  | illegalCmd
  /-- PROT.RXPUSH on a full rx_fifo (R213). -/
  | rxOverflow
  /-- An intermediate of unit m outside the 32-bit range (R212). -/
  | arithRange (m : Motor)
deriving DecidableEq, Repr

/-- What stops the machine: nothing. "So no fault stops the block, and every later operation runs by its own rule"
(R210), so the type has no constructor, no meaning can answer a fault, and there is nothing safe or unsafe to say. -/
inductive Fault where
deriving DecidableEq, Repr

/-- Why the model would have no meaning for an operation. -/
inductive Refusal where
  /-- An operation without a meaning, by its mnemonic. Safe: the model would stop where the block goes on. No arm of
  `exec` raises it: every operation has its meaning. -/
  | notModelled (mnemonic : String)
deriving DecidableEq, Repr

/-! ### Reset -/

/-- A motor-loop unit right after reset (R231). -/
def MotorUnit.reset : MotorUnit where
  setpoint      := 0#8
  law           := .direct
  lastError     := 0
  integralError := 0
  acc           := 0
  correction    := 0
  ring          := Vector.replicate 100 0#16
  ringIdx       := 0
  decayCounter  := 0
  lastDirection := .zero
  v             := 0
  dutyA         := 0
  dutyB         := 0
  arithRange    := false

/-- work right after reset (R231). -/
def WorkFrame.reset : WorkFrame := ⟨0#8, 0#8, 0#8, 0#8, 0#8⟩

/-- staged right after reset (R231). -/
def CommandFrame.reset : CommandFrame := ⟨0#8, 0#8, 0#8, 0#8, 0#8, none⟩

/-- The four per-motor elements, all 0. -/
def MotorSample.zeros : MotorSample := ⟨0, 0, 0, 0⟩

/-- The telemetry sample of a layout whose elements are all 0: a value of the port's type. -/
def TelemetrySample.zeros (l : TlmLayout) : TelemetrySample where
  voltage         := List.replicate l.voltage.count 0
  chargeState     := List.replicate l.chargeState.count 0
  bankVoltage     := List.replicate l.bankVoltage.count 0
  motor0          := MotorSample.zeros
  motor1          := MotorSample.zeros
  motor2          := MotorSample.zeros
  accel           := List.replicate l.accel.count 0
  mag             := List.replicate l.mag.count 0
  gyro            := List.replicate l.gyro.count 0
  distance        := List.replicate l.distance.count 0
  light           := List.replicate l.light.count 0
  thermal         := List.replicate l.thermal.count 0
  errorRegister   := List.replicate l.errorRegister.count 0
  lastCommandRead := List.replicate l.lastCommandRead.count 0
  status          := List.replicate l.status.count 0

/-- Port values that are all 0. DESIGN CHOICE (log entry 1, unsafe): the values before the first command; every command
brings its own, and no statement rests on these. -/
def InPorts.zeros (l : TlmLayout) : InPorts :=
  ⟨TelemetrySample.zeros l, ⟨0#16, 0#16, 0#16⟩, ⟨0#16, 0#16, 0#16⟩, ⟨0#16, 0#16, 0#16⟩⟩

/-- The machine of an instance right after power-on (R230, R231): every element at its reset value, nothing emitted on
cmd_out and nothing pending on the command port. -/
def State.resetWith (cfg : Config) (table : Vector Word 256) : State where
  cfg          := cfg
  crcTable     := table
  crc          := cfg.crcInit
  pstate       := .header1
  rxFifo       := []
  work         := WorkFrame.reset
  staged       := CommandFrame.reset
  stagedValid  := false
  cmdDisabled  := false
  txBuf        := []
  txBusy       := false
  rsp          := 0x0000#16
  illegalCmd   := false
  rxOverflow   := false
  motor0       := MotorUnit.reset
  motor1       := MotorUnit.reset
  motor2       := MotorUnit.reset
  cmdOut       := []
  ports        := InPorts.zeros cfg.tlmLayout
  pending      := []

/-- The machine right after reset: the instance `Config.block`, whose OPEN parameters are any that R9 allows. -/
def State.reset : State := State.resetWith Config.block Config.crcTable

end Sys2Proof.Machine
end

