-- ==== Sys2Proof/Machine/Operands.lean ====
section
/-! DEFINITION. The helper functions of R12 and R15, on mathematical integers (R11), and how a field of bits becomes an
operand (R86). -/

namespace Sys2Proof.Machine

/-- `sext_8(v)`: the byte read as two's complement (R12). -/
def sext8 (v : BitVec 8) : Int := v.toInt

/-- `sext_16(v)`: the word read as two's complement (R12); MEAS_CLICKS is s16 (R49). -/
def sext16 (v : Word) : Int := v.toInt

/-- `zext_16(v)`: the word read as unsigned (R12). -/
def zext16 (v : Word) : Nat := v.toNat

/-- `clamp(x, lo, hi)` (R12). -/
def clamp (x lo hi : Int) : Int := if x < lo then lo else if hi < x then hi else x

/-- `sgn(x)` (R12). -/
def sgn (x : Int) : Int := if 0 < x then 1 else if x < 0 then -1 else 0

/-- `abs(x)` = x·sgn(x) (R12). -/
def absInt (x : Int) : Int := x * sgn x

/-- `tdiv(a, b)`: the quotient truncated toward zero (R12). -/
def tdiv (a b : Int) : Int := a.tdiv b

/-- `asr(x, k)` = floor(x / 2^k), the arithmetic right shift (R12). -/
def asr (x : Int) (k : Nat) : Int := x.fdiv (2 ^ k)

/-- `floordiv(a, b)` for a ≥ 0, b > 0 (R12). -/
def floordiv (a b : Nat) : Nat := a / b

/-- `byte_k(v)`: byte k of a non-negative value, k = 0 the least significant (R12). -/
def byteK (k v : Nat) : Byte := BitVec.ofNat 8 (v / 2 ^ (8 * k))

/-- `InRange32(x)`: -2^31 ≤ x ≤ 2^31 - 1 (R15). -/
abbrev InRange32 (x : Int) : Prop := -2147483648 ≤ x ∧ x ≤ 2147483647

/-- The sign of a duty command as a direction (R46). -/
def Direction.ofSgn (x : Int) : Direction :=
  if 0 < x then .positive else if x < 0 then .negative else .zero

/-- The value of a direction: -1, 0 or +1 (R46). -/
def Direction.toInt : Direction → Int
  | .negative => -1
  | .zero => 0
  | .positive => 1

end Sys2Proof.Machine
end

