-- ==== Sys2Proof/Machine/Ops.lean ====
section
/-! DEFINITION. The named operations over the state that the meanings share: a motor-loop unit and its input ports by
motor index, the one fault operation `raise Fault(kind, info)` (R210), a motor-loop operation with its checks (R212),
the FIFO primitives (R13), RESET (R230) and taking the next event off the command port (R60). There is no return from a
fault to write: the block has no trap (R217, R218). -/

namespace Sys2Proof.Machine

/-! ### Motor-loop units and their ports -/

/-- The state of motor-loop unit m. -/
def State.motor (s : State) : Motor → MotorUnit
  | .m0 => s.motor0
  | .m1 => s.motor1
  | .m2 => s.motor2

/-- Replace the state of motor-loop unit m; nothing else changes (R224). -/
def State.setMotor (s : State) (m : Motor) (u : MotorUnit) : State :=
  { s with
    motor0 := match m with | .m0 => u | .m1 => s.motor0 | .m2 => s.motor0
    motor1 := match m with | .m0 => s.motor1 | .m1 => u | .m2 => s.motor1
    motor2 := match m with | .m0 => s.motor2 | .m1 => s.motor2 | .m2 => u }

/-- The input ports of motor-loop unit m (R49). -/
def InPorts.motor (p : InPorts) : Motor → MotorPorts
  | .m0 => p.motor0
  | .m1 => p.motor1
  | .m2 => p.motor2

/-- The four elements of motor m in a telemetry sample (R99). -/
def TelemetrySample.motor (t : TelemetrySample) : Motor → MotorSample
  | .m0 => t.motor0
  | .m1 => t.motor1
  | .m2 => t.motor2

/-! ### Faults -/

/-- The cause code of a fault kind, which is its status bit (R214). -/
def FaultKind.causeCode : FaultKind → Nat
  | .illegalCmd => 0
  | .rxOverflow => 1
  | .arithRange .m0 => 2
  | .arithRange .m1 => 3
  | .arithRange .m2 => 4

/-- What ARITH_RANGE[m] does to unit m: the sticky bit is set and the unit is forced safe, duty_a, duty_b and
last_direction 0 (R212). -/
def MotorUnit.forceSafe (u : MotorUnit) : MotorUnit :=
  { u with arithRange := true, dutyA := 0, dutyB := 0, lastDirection := .zero }

/-- `raise Fault(kind, info)` (R210): sets the sticky bit of the kind, and for ARITH_RANGE[m] forces unit m safe (R212).
info is not recorded (R210). -/
def State.raiseFault (s : State) : FaultKind → State
  | .illegalCmd => { s with illegalCmd := true }
  | .rxOverflow => { s with rxOverflow := true }
  | .arithRange m => s.setMotor m (s.motor m).forceSafe

/-- A motor-loop operation on unit m whose checks may fail: `f` gives the unit after the operation, or none when a
checked intermediate is outside the 32-bit range. Then every write of the operation is abandoned and ARITH_RANGE[m] is
raised (R212). -/
def State.runMotor (s : State) (m : Motor) (f : MotorUnit → Option MotorUnit) : State :=
  match f (s.motor m) with
  | some u => s.setMotor m u
  | none => s.raiseFault (.arithRange m)

/-! ### FIFO, response register, output port -/

/-- `Push(rx_fifo, b)` (R13). -/
def State.pushRx (s : State) (b : Byte) : State := { s with rxFifo := s.rxFifo ++ [b] }

/-- `rsp <- v` (R14, R22). -/
def State.respond (s : State) (v : Word) : State := { s with rsp := v }

/-- `Emit(cmd_out, e)` (R13, R37). -/
def State.emit (s : State) (e : CmdOutEvent) : State := { s with cmdOut := s.cmdOut ++ [e] }

/-! ### RESET and the command port -/

/-- The event RESET (R230): every state element takes its reset value of R231 in one step. The parameters, the contents
of CRC_TABLE, the events already emitted on cmd_out, and what stands outside the block (port values, pending commands)
stay. -/
def State.resetEvent (s : State) : State :=
  { State.resetWith s.cfg s.crcTable with cmdOut := s.cmdOut, ports := s.ports, pending := s.pending }

/-- The next event on the command port, in port order (R60), with the state it finds: the port values a command brings
are what the input ports hold while it runs (R70). Nothing when no event is pending. -/
def State.nextEvent (s : State) : Option (PortEvent × State) :=
  match s.pending with
  | [] => none
  | .reset :: rest => some (.reset, { s with pending := rest })
  | .command c :: rest => some (.command c, { s with pending := rest, ports := c.ports })

/-- A command word put in front of the command port, issued by the tick agent under the port values that hold. -/
def State.issueNext (s : State) (w : Word) : State :=
  { s with pending := .command ⟨.tick, w, s.ports⟩ :: s.pending }

end Sys2Proof.Machine
end

