-- ==== Sys2Proof/Machine/Crc.lean ====
section
/-! DEFINITION. The CRC unit (40_crc.md): the update function, the table generation from a polynomial, and the meanings
of CRC.INIT, CRC.UPDATE and CRC.READ. -/

namespace Sys2Proof.Machine

/-- `CrcStep(s, b)` = {s[7:0], 0x00} ^ CRC_TABLE[s[15:8] ^ b] (R110). -/
def crcStep (table : Vector Word 256) (s : Word) (b : Byte) : Word :=
  (s <<< 8) ^^^ table[(s.extractLsb' 8 8 ^^^ b).toNat]'(by omega)

/-- `CrcSeq(s, bytes)`: the fold of CrcStep over a byte sequence (R115). -/
def crcSeq (table : Vector Word 256) (s : Word) (bytes : List Byte) : Word :=
  bytes.foldl (crcStep table) s

/-- One of the eight shifts of R113. -/
def tableShift (poly c : Word) : Word := if c.msb then (c <<< 1) ^^^ poly else c <<< 1

/-- Entry i of the table that CRC_POLY generates (R113): i << 8, shifted eight times. -/
def tableEntry (poly : Word) (i : Nat) : Word := Nat.repeat (tableShift poly) 8 (BitVec.ofNat 16 (i * 256))

/-- The table that CRC_POLY generates (R113), for an instance whose CRC_TABLE is built from a polynomial. -/
def generatedTable (poly : Word) : Vector Word 256 :=
  ⟨((List.range 256).map (tableEntry poly)).toArray, by simp⟩

/-- CRC.INIT (R111): crc <- CRC_INIT. -/
def execCrcInit (s : State) : Host.Outcome State Fault Refusal :=
  .next { s with crc := s.cfg.crcInit }

/-- CRC.UPDATE b (R112): crc <- CrcStep(crc, b). -/
def execCrcUpdate (b : Byte) (s : State) : Host.Outcome State Fault Refusal :=
  .next { s with crc := crcStep s.crcTable s.crc b }

/-- CRC.READ (R114): rsp <- crc. -/
def execCrcRead (s : State) : Host.Outcome State Fault Refusal :=
  .next (s.respond s.crc)

end Sys2Proof.Machine
end

