-- ==== Sys2Proof/Machine/Motor.lean ====
section
/-! DEFINITION. The motor-loop unit (42_motor_loop.md): the two laws, the current limiter, the power limiter, the duty
actuation, the tick, and the meanings of the nine MOT operations. A stage that checks an intermediate (R15) answers
none when the check fails; `State.runMotor` then raises ARITH_RANGE[m] (R212). -/

namespace Sys2Proof.Machine

/-! ### Velocity-control laws -/

/-- Neutral(sp): sp = 0, sp > 100 or sp < -100 (R162). -/
abbrev Neutral (sp : Int) : Prop := sp = 0 ∨ 100 < sp ∨ sp < -100

/-- The law state after a law step with a neutral setpoint (R162): unchanged, or cleared when NEUTRAL_CLEARS. -/
def MotorUnit.neutralStep (c : Config) (u : MotorUnit) : MotorUnit :=
  if c.neutralClears then { u with lastError := 0, integralError := 0, acc := 0 } else u

/-- e = setpoint · 4 - clk (R163, R165). -/
def MotorUnit.error (u : MotorUnit) (clk : Word) : Int := sext8 u.setpoint * 4 - sext16 clk

/-- PdStep(clk) (R163): the unit after the step and the value it returns. -/
def MotorUnit.pdStep (c : Config) (u : MotorUnit) (clk : Word) : Option (MotorUnit × Int) :=
  if Neutral (sext8 u.setpoint) then some (u.neutralStep c, 0)
  else
    let e := u.error clk
    let de := e - u.lastError
    let p := e * c.kp
    let d := de * c.kd
    let t := u.acc + p + d
    if InRange32 p ∧ InRange32 d ∧ InRange32 t then
      let a := clamp t (-8128) 8128
      some ({ u with acc := a, lastError := e }, asr a 6)
    else none

/-- The leaky integral of a PID step: leak first, then add the new error (R165). -/
def MotorUnit.leaked (u : MotorUnit) (clk : Word) : Int := tdiv (u.integralError * 63) 64 + u.error clk

/-- PidStep(clk) (R165): the unit after the step and the value it returns. -/
def MotorUnit.pidStep (c : Config) (u : MotorUnit) (clk : Word) : Option (MotorUnit × Int) :=
  if Neutral (sext8 u.setpoint) then some (u.neutralStep c, 0)
  else
    let e := u.error clk
    let de := e - u.lastError
    let ig := u.leaked clk
    let p := e * c.kps
    let i := ig * c.kis
    let d := de * c.kds
    let t := p + i + d
    if InRange32 p ∧ InRange32 i ∧ InRange32 d ∧ InRange32 t then
      let a := clamp t (-8128) 8128
      some ({ u with integralError := ig, acc := a, lastError := e }, asr a 6)
    else none

/-- The DIRECT stage: clamp(setpoint, -127, 127) (R167). -/
def MotorUnit.directDuty (u : MotorUnit) : Int := clamp (sext8 u.setpoint) (-127) 127

/-- The law stage of a tick, by law[m] (R175). -/
def MotorUnit.lawStep (c : Config) (u : MotorUnit) (clk : Word) : Option (MotorUnit × Int) :=
  match u.law with
  | .direct => some (u, u.directDuty)
  | .pd => u.pdStep c clk
  | .pid => u.pidStep c clk

/-! ### Limiters and actuation -/

/-- ClimStep(x, cur) (R168): the unit after the step and the limited value. -/
def MotorUnit.climStep (c : Config) (u : MotorUnit) (x : Int) (cur : Word) : Option (MotorUnit × Int) :=
  let err := (c.iLimit : Int) - zext16 cur
  let lo := -absInt x * c.clFactor
  let t := u.correction + err
  if InRange32 lo ∧ InRange32 t then
    let k := clamp t lo 0
    some ({ u with correction := k }, clamp (x + sgn x * tdiv k c.iLimitScale) (-127) 127)
  else none

/-- The ring after one more sample: the oldest is overwritten (R170). -/
def MotorUnit.storeSample (u : MotorUnit) (cur : Word) : MotorUnit :=
  { u with ring := u.ring.set u.ringIdx.val cur u.ringIdx.isLt, ringIdx := u.ringIdx + 1 }

/-- avg = floordiv(ring[0] + … + ring[99], 100) (R170). -/
def MotorUnit.average (u : MotorUnit) : Nat := floordiv (u.ring.toList.map BitVec.toNat).sum 100

/-- est: the average with the new sample stored, times the bus voltage (R170). -/
def MotorUnit.powerEstimate (u : MotorUnit) (cur vb : Word) : Nat := (u.storeSample cur).average * zext16 vb

/-- PlimStep(x, cur, vb) (R170): the unit after the step and the value passed on. The trip test comes before the decay
test; there is no proportional back-off (R172). -/
def MotorUnit.plimStep (c : Config) (u : MotorUnit) (x : Int) (cur vb : Word) : MotorUnit × Int :=
  let u' := u.storeSample cur
  if 4 * c.pNominal < u.powerEstimate cur vb then ({ u' with decayCounter := c.decayMax }, 0)
  else if 0 < u.decayCounter then ({ u' with decayCounter := u.decayCounter - 1 }, 0)
  else (u', x)

/-- Whether ActStep of commanded direction d is a dead tick (R173). -/
def deadTick (c : Config) (d last : Direction) : Bool :=
  d ≠ last && (c.deadtimeFromZero || (d ≠ .zero && last ≠ .zero))

/-- ActStep(x) (R173). -/
def MotorUnit.actStep (c : Config) (u : MotorUnit) (x : Int) : MotorUnit :=
  let w := clamp x (-127) 127
  let d := Direction.ofSgn w
  if deadTick c d u.lastDirection then { u with dutyA := 0, dutyB := 0, lastDirection := d }
  else { u with dutyA := w.toNat, dutyB := (-w).toNat, lastDirection := d }

/-! ### The stages as operations on a unit -/

/-- Leave a stage's value in the pipeline register v (R47). -/
def MotorUnit.withV (r : MotorUnit × Int) : MotorUnit := { r.1 with v := r.2 }

/-- The law stage PD on a unit (R164). -/
def MotorUnit.opPd (c : Config) (p : MotorPorts) (u : MotorUnit) : Option MotorUnit :=
  (u.pdStep c p.measClicks).map MotorUnit.withV

/-- The law stage PID on a unit (R166). -/
def MotorUnit.opPid (c : Config) (p : MotorPorts) (u : MotorUnit) : Option MotorUnit :=
  (u.pidStep c p.measClicks).map MotorUnit.withV

/-- The current limiter on v (R169). -/
def MotorUnit.opClim (c : Config) (p : MotorPorts) (u : MotorUnit) : Option MotorUnit :=
  (u.climStep c u.v p.measCurrent).map MotorUnit.withV

/-- The power limiter on v (R171). -/
def MotorUnit.opPlim (c : Config) (p : MotorPorts) (u : MotorUnit) : MotorUnit :=
  MotorUnit.withV (u.plimStep c u.v p.measCurrent p.busVoltage)

/-- One tick of a unit (R175): law, current limiter, power limiter, actuation, each on the same port values, and v left
at the value actuated. None when a check fails. -/
def MotorUnit.opTick (c : Config) (p : MotorPorts) (u : MotorUnit) : Option MotorUnit :=
  match u.lawStep c p.measClicks with
  | none => none
  | some (u1, x1) =>
    match u1.climStep c x1 p.measCurrent with
    | none => none
    | some (u2, x2) =>
      let r := u2.plimStep c x2 p.measCurrent p.busVoltage
      some { r.1.actStep c r.2 with v := r.2 }

/-! ### The meanings -/

/-- MOT.SETSP m, s (R160): setpoint[m] <- s. -/
def execMotSetsp (m : Motor) (sp : BitVec 8) (s : State) : Host.Outcome State Fault Refusal :=
  .next (s.setMotor m { s.motor m with setpoint := sp })

/-- MOT.SETLAW m, law (R161): law[m] <- law; no other state of the unit changes. -/
def execMotSetlaw (m : Motor) (law : Law) (s : State) : Host.Outcome State Fault Refusal :=
  .next (s.setMotor m { s.motor m with law := law })

/-- MOT.TICK m (R175). -/
def execMotTick (m : Motor) (s : State) : Host.Outcome State Fault Refusal :=
  .next (s.runMotor m (MotorUnit.opTick s.cfg (s.ports.motor m)))

/-- MOT.DIRECT m (R167): v[m] <- clamp(setpoint[m], -127, 127). -/
def execMotDirect (m : Motor) (s : State) : Host.Outcome State Fault Refusal :=
  .next (s.setMotor m { s.motor m with v := (s.motor m).directDuty })

/-- MOT.PD m (R164): v[m] <- PdStep(MEAS_CLICKS[m]). -/
def execMotPd (m : Motor) (s : State) : Host.Outcome State Fault Refusal :=
  .next (s.runMotor m (MotorUnit.opPd s.cfg (s.ports.motor m)))

/-- MOT.PID m (R166): v[m] <- PidStep(MEAS_CLICKS[m]). -/
def execMotPid (m : Motor) (s : State) : Host.Outcome State Fault Refusal :=
  .next (s.runMotor m (MotorUnit.opPid s.cfg (s.ports.motor m)))

/-- MOT.CLIM m (R169): v[m] <- ClimStep(v[m], MEAS_CURRENT[m]). -/
def execMotClim (m : Motor) (s : State) : Host.Outcome State Fault Refusal :=
  .next (s.runMotor m (MotorUnit.opClim s.cfg (s.ports.motor m)))

/-- MOT.PLIM m (R171): v[m] <- PlimStep(v[m], MEAS_CURRENT[m], BUS_VOLTAGE[m]). -/
def execMotPlim (m : Motor) (s : State) : Host.Outcome State Fault Refusal :=
  .next (s.setMotor m ((s.motor m).opPlim s.cfg (s.ports.motor m)))

/-- MOT.ACT m (R174): ActStep(v[m]). -/
def execMotAct (m : Motor) (s : State) : Host.Outcome State Fault Refusal :=
  .next (s.setMotor m ((s.motor m).actStep s.cfg (s.motor m).v))

end Sys2Proof.Machine
end

