-- ==== Sys2Proof/Machine/Flags.lean ====
section
/-! DEFINITION. The flags of the block as software and agents see them: the codes of pstate (R26), the status word
(R34) and the output level FRAME_READY (R35). The block has no condition codes (R51). -/

namespace Sys2Proof.Machine

/-- The code of pstate (R26). -/
def PState.code : PState → BitVec 3
  | .header1 => 0#3
  | .header2 => 1#3
  | .header3 => 2#3
  | .header4 => 3#3
  | .motorData => 4#3
  | .ledData => 5#3

/-- The status word (R34, R201): bits 15:11 zero, 10:8 the pstate code, 7 CMD_DISABLED, 6 TX_BUSY, 5 STAGED_VALID,
4 to 2 ARITH_RANGE[2] to ARITH_RANGE[0], 1 RX_OVERFLOW, 0 ILLEGAL_CMD. -/
def State.statusWord (s : State) : Word :=
  0#5 ++ s.pstate.code ++ BitVec.ofBool s.cmdDisabled ++ BitVec.ofBool s.txBusy ++ BitVec.ofBool s.stagedValid ++
    BitVec.ofBool s.motor2.arithRange ++ BitVec.ofBool s.motor1.arithRange ++ BitVec.ofBool s.motor0.arithRange ++
    BitVec.ofBool s.rxOverflow ++ BitVec.ofBool s.illegalCmd

/-- FRAME_READY, a level equal to staged_valid at every moment (R35). -/
def State.frameReady (s : State) : Bool := s.stagedValid

/-- The sticky bit of a fault kind (R33). -/
def State.faultBit (s : State) : FaultKind → Bool
  | .illegalCmd => s.illegalCmd
  | .rxOverflow => s.rxOverflow
  | .arithRange m => (s.motor m).arithRange

end Sys2Proof.Machine
end

