-- ==== Sys2Proof/Machine/Protocol.lean ====
section
/-! DEFINITION. The command side of the protocol unit (41_protocol.md sections 1 to 3): the header scanner, the parser's
loop, staging, the gate, and the meanings of PROT.RXPUSH, PROT.DECODE, PROT.TAKE and PROT.SETGATE. -/

namespace Sys2Proof.Machine

/-! ### The parser -/

/-- The byte a header state waits for, CMD_HDR[n-1] in HEADERn (R122), and the state after it. -/
def headerExpect (c : Config) : PState → Option (Byte × PState)
  | .header1 => some (c.cmdHdr.b0, .header2)
  | .header2 => some (c.cmdHdr.b1, .header3)
  | .header3 => some (c.cmdHdr.b2, .header4)
  | .header4 => some (c.cmdHdr.b3, .motorData)
  | .motorData => none
  | .ledData => none

/-- HeaderStep (R122, R123): the state after byte b in header state p, which waits for `want` and then goes to `after`. -/
def headerStep (c : Config) (p : PState) (want : Byte) (after : PState) (b : Byte) : PState :=
  if b = want then after
  else if c.resyncRecheck ∧ p ≠ .header1 ∧ b = c.cmdHdr.b0 then .header2
  else .header1

/-- The triples of the led data: byte j is channel j mod 3 of triple floor(j / 3) (R95, R125). -/
def ledTriples : List Byte → List Rgb
  | r :: g :: b :: rest => ⟨r, g, b⟩ :: ledTriples rest
  | _ => []

/-- The frame staged from work with the given led data (R129). -/
def WorkFrame.toFrame (w : WorkFrame) (leds : Option (List Rgb)) : CommandFrame :=
  ⟨w.motorMode, w.m1, w.m2, w.m3, w.ledMode, leds⟩

/-- What one PROT.DECODE call works on: the protocol unit's parser state, the count of bytes consumed so far, and the
frame it has staged, if any (R128's `done`). -/
structure DecodeRun where
  pstate   : PState
  rx       : List Byte
  work     : WorkFrame
  consumed : Nat
  frame    : Option CommandFrame
deriving DecidableEq, Repr

/-- One iteration of the loop of R128: none when the loop exits, because rx_fifo holds too few bytes (R126) or the step
would take the count past DECODE_BOUND (R127). -/
def parserStep (c : Config) (d : DecodeRun) : Option DecodeRun :=
  match headerExpect c d.pstate with
  | some (want, after) =>
    match d.rx with
    | b :: rest =>
      if d.consumed + 1 ≤ c.decodeBound then
        some { d with pstate := headerStep c d.pstate want after b, rx := rest, consumed := d.consumed + 1 }
      else none
    | [] => none
  | none =>
    if d.pstate = .motorData then
      match d.rx with
      | d0 :: d1 :: d2 :: d3 :: d4 :: rest =>
        if d.consumed + 5 ≤ c.decodeBound then
          let w : WorkFrame := ⟨d0, d1, d2, d3, d4⟩
          if d4 = c.ledCustom then
            some { d with pstate := .ledData, rx := rest, work := w, consumed := d.consumed + 5 }
          else
            some { d with pstate := .header1, rx := rest, work := w, consumed := d.consumed + 5,
                          frame := some (w.toFrame none) }
        else none
      | _ => none
    else if 48 ≤ d.rx.length ∧ d.consumed + 48 ≤ c.decodeBound then
      some { d with pstate := .header1, rx := d.rx.drop 48, consumed := d.consumed + 48,
                    frame := some (d.work.toFrame (some (ledTriples (d.rx.take 48)))) }
    else none

/-- The loop of R128: it ends at the first completed frame or when `parserStep` exits. Every iteration consumes a byte,
so as many iterations as rx_fifo has bytes are enough. -/
def parserLoop (c : Config) : Nat → DecodeRun → DecodeRun
  | 0, d => d
  | n + 1, d =>
    if d.frame.isSome then d
    else
      match parserStep c d with
      | some d' => parserLoop c n d'
      | none => d

/-- A PROT.DECODE call as it starts (R128). -/
def State.decodeStart (s : State) : DecodeRun := ⟨s.pstate, s.rxFifo, s.work, 0, none⟩

/-- A PROT.DECODE call as it ends (R128). -/
def State.decodeEnd (s : State) : DecodeRun := parserLoop s.cfg s.rxFifo.length s.decodeStart

/-- `Stage(f, leds)` (R129): staged <- f, staged_valid <- 1; a frame not yet taken is overwritten. -/
def State.stage (s : State) (f : CommandFrame) : State := { s with staged := f, stagedValid := true }

/-- `Stage` if the call completed a frame. -/
def State.stageFrom (s : State) : Option CommandFrame → State
  | some f => s.stage f
  | none => s

/-- rsp of PROT.DECODE: bit 15 done, bits 14:0 the bytes consumed (R102, R128). -/
def DecodeRun.response (d : DecodeRun) : Word := BitVec.ofBool d.frame.isSome ++ BitVec.ofNat 15 d.consumed

/-- The state after a PROT.DECODE call that ended as `d` says. -/
def State.afterDecode (s : State) (d : DecodeRun) : State :=
  ({ s with pstate := d.pstate, rxFifo := d.rx, work := d.work }.stageFrom d.frame).respond d.response

/-! ### The gate -/

/-- MotorPasses(mm) (R133): the three enable codes. -/
def motorPasses (c : Config) (mm : Byte) : Bool := mm = c.modeEnCharging || mm = c.modeEnVref || mm = c.modeEnAmp

/-- fwd of PROT.TAKE (R132): whether the motor part of the staged frame is forwarded. -/
def State.forwards (s : State) : Bool := !s.cmdDisabled || motorPasses s.cfg s.staged.motorMode

/-- The event PROT.TAKE emits for the staged frame (R132, R135): the led part is forwarded whatever the gate holds. -/
def State.takeEvent (s : State) : CmdOutEvent where
  motor   := if s.forwards then .forward s.staged.motorMode s.staged.m1 s.staged.m2 s.staged.m3 else .suppressed
  ledMode := s.staged.ledMode
  ledData := s.staged.ledData

/-- rsp of PROT.TAKE when a frame was staged (R102, R132). -/
def State.takeResponse (s : State) : Word := 1#1 ++ BitVec.ofBool s.forwards ++ 0#6 ++ s.staged.motorMode

/-! ### The meanings -/

/-- PROT.RXPUSH b (R120): the byte is appended, or dropped with RX_OVERFLOW when rx_fifo is full. -/
def execProtRxpush (b : Byte) (s : State) : Host.Outcome State Fault Refusal :=
  .next (if s.rxFifo.length < s.cfg.rxBufCap then s.pushRx b else s.raiseFault .rxOverflow)

/-- PROT.DECODE (R128). -/
def execProtDecode (s : State) : Host.Outcome State Fault Refusal :=
  .next (s.afterDecode s.decodeEnd)

/-- PROT.TAKE (R132): staged keeps its contents. -/
def execProtTake (s : State) : Host.Outcome State Fault Refusal :=
  .next (if s.stagedValid then ({ s with stagedValid := false }.emit s.takeEvent).respond s.takeResponse
    else s.respond 0x0000#16)

/-- PROT.SETGATE g (R134): cmd_disabled <- g. -/
def execProtSetgate (g : Bool) (s : State) : Host.Outcome State Fault Refusal :=
  .next { s with cmdDisabled := g }

end Sys2Proof.Machine
end

