-- ==== Sys2Proof/Machine/System.lean ====
section
/-! DEFINITION. The system operations (43_system.md): the meanings of SYS.NOP and SYS.STATUS. -/

namespace Sys2Proof.Machine

/-- SYS.NOP (R200): no state changes. -/
def execSysNop (s : State) : Host.Outcome State Fault Refusal := .next s

/-- SYS.STATUS (R201): rsp <- the status word; reading it clears nothing. -/
def execSysStatus (s : State) : Host.Outcome State Fault Refusal :=
  .next (s.respond s.statusWord)

end Sys2Proof.Machine
end

