-- ==== Sys2Proof/Machine/Telemetry.lean ====
section
/-! DEFINITION. The telemetry serializer (R98 to R100, R140 to R143): an element's bytes, a sample's bytes in the fixed
group order, the frame with its CRC, and the meanings of PROT.ENCODE and PROT.TXDONE. -/

namespace Sys2Proof.Machine

/-- The bytes of an element of width w and value x (R99): the w bytes of u = x mod 2^(8w), most significant first when
TLM_BIG_ENDIAN, least significant first otherwise (R66). -/
def elementBytes (bigEndian : Bool) (w : Nat) (x : Int) : List Byte :=
  let u := (x % 2 ^ (8 * w)).toNat
  let low := (List.range w).map fun k => byteK k u
  if bigEndian then low.reverse else low

/-- Element j of group g of a sample. A sample lists every element (R36); one it does not list is free (log entry 6). -/
def elementAt (g : Nat) (xs : List Int) (j : Nat) : Int :=
  match xs[j]? with
  | some x => x
  | none => Config.undrivenElement g j

/-- The bytes of group number g: its elements in index order 0 to n - 1 (R99). -/
def groupBytes (bigEndian : Bool) (g : Nat) (grp : TlmGroup) (xs : List Int) : List Byte :=
  (List.range grp.count).flatMap fun j => elementBytes bigEndian grp.width (elementAt g xs j)

/-- The bytes of one motor: voltage, clicks, current, temperature (R99). -/
def motorBytes (bigEndian : Bool) (l : TlmLayout) (x : MotorSample) : List Byte :=
  elementBytes bigEndian l.motorVoltage.width x.voltage ++
    elementBytes bigEndian l.motorClicks.width x.clicks ++
    elementBytes bigEndian l.motorCurrent.width x.current ++
    elementBytes bigEndian l.motorTemperature.width x.temperature

/-- `Serialize(s)`: the thirteen groups in the fixed order of R140; group 4 motor by motor, 0, 1, 2 (R99). -/
def serialize (c : Config) (t : TelemetrySample) : List Byte :=
  let l := c.tlmLayout
  let be := c.tlmBigEndian
  groupBytes be 1 l.voltage t.voltage ++
    groupBytes be 2 l.chargeState t.chargeState ++
    groupBytes be 3 l.bankVoltage t.bankVoltage ++
    (motorBytes be l (t.motor .m0) ++ motorBytes be l (t.motor .m1) ++ motorBytes be l (t.motor .m2)) ++
    groupBytes be 5 l.accel t.accel ++
    groupBytes be 6 l.mag t.mag ++
    groupBytes be 7 l.gyro t.gyro ++
    groupBytes be 8 l.distance t.distance ++
    groupBytes be 9 l.light t.light ++
    groupBytes be 10 l.thermal t.thermal ++
    groupBytes be 11 l.errorRegister t.errorRegister ++
    groupBytes be 12 l.lastCommandRead t.lastCommandRead ++
    groupBytes be 13 l.status t.status

/-- The frame's bytes before the CRC: TLM_HDR and the serialized sample (R98, R142). -/
def frameBody (c : Config) (t : TelemetrySample) : List Byte := c.tlmHdr.toList ++ serialize c t

/-- The two CRC bytes, high byte first (R64, R143). -/
def crcBytes (v : Word) : List Byte := [v.extractLsb' 8 8, v.extractLsb' 0 8]

/-- The CRC of a frame: from CRC_INIT over every byte before the CRC (R143). -/
def frameCrc (c : Config) (table : Vector Word 256) (t : TelemetrySample) : Word :=
  crcSeq table c.crcInit (frameBody c t)

/-- A telemetry frame (R98). -/
def telemetryFrame (c : Config) (table : Vector Word 256) (t : TelemetrySample) : List Byte :=
  frameBody c t ++ crcBytes (frameCrc c table t)

/-- The length of every telemetry frame: 6 + BODY_LEN (R100). -/
def frameLength (c : Config) : Nat := 6 + c.tlmLayout.bodyLen

/-- The state after PROT.ENCODE built a frame from TLM_IN (R141, tx_busy = 0). -/
def State.buildFrame (s : State) : State :=
  { s with
    crc    := frameCrc s.cfg s.crcTable s.ports.tlmIn
    txBuf  := telemetryFrame s.cfg s.crcTable s.ports.tlmIn
    txBusy := true
    rsp    := BitVec.ofNat 16 (frameLength s.cfg) }

/-- PROT.ENCODE (R141): while a send is in flight rsp <- 0x0000 and nothing else; else the frame is built. -/
def execProtEncode (s : State) : Host.Outcome State Fault Refusal :=
  .next (if s.txBusy then s.respond 0x0000#16 else s.buildFrame)

/-- PROT.TXDONE (R144): tx_busy <- 0. -/
def execProtTxdone (s : State) : Host.Outcome State Fault Refusal :=
  .next { s with txBusy := false }

end Sys2Proof.Machine
end

