-- ==== Sys2Proof/Machine/Dispatch.lean ====
section
/-! DEFINITION. The meaning of each operation, one arm per constructor of `Instr`, in the order of the opcode table. -/

namespace Sys2Proof.Machine

def exec (i : Instr) (s : State) : Host.Outcome State Fault Refusal :=
  match i with
  | .crcInit => Sys2Proof.Machine.execCrcInit s
  | .crcUpdate b => Sys2Proof.Machine.execCrcUpdate b s
  | .crcRead => Sys2Proof.Machine.execCrcRead s
  | .protRxpush b => Sys2Proof.Machine.execProtRxpush b s
  | .protDecode => Sys2Proof.Machine.execProtDecode s
  | .protTake => Sys2Proof.Machine.execProtTake s
  | .protSetgate g => Sys2Proof.Machine.execProtSetgate g s
  | .protEncode => Sys2Proof.Machine.execProtEncode s
  | .protTxdone => Sys2Proof.Machine.execProtTxdone s
  | .sysNop => Sys2Proof.Machine.execSysNop s
  | .sysStatus => Sys2Proof.Machine.execSysStatus s
  | .motSetsp m sp => Sys2Proof.Machine.execMotSetsp m sp s
  | .motSetlaw m law => Sys2Proof.Machine.execMotSetlaw m law s
  | .motTick m => Sys2Proof.Machine.execMotTick m s
  | .motDirect m => Sys2Proof.Machine.execMotDirect m s
  | .motPd m => Sys2Proof.Machine.execMotPd m s
  | .motPid m => Sys2Proof.Machine.execMotPid m s
  | .motClim m => Sys2Proof.Machine.execMotClim m s
  | .motPlim m => Sys2Proof.Machine.execMotPlim m s
  | .motAct m => Sys2Proof.Machine.execMotAct m s

end Sys2Proof.Machine
end

