-- ==== Sys2Proof/Machine/Port.lean ====
section
/-! DEFINITION. The command port: what one command word does (R80, R88). -/

namespace Sys2Proof.Machine

/-- Run one command word on a state: its operation, or ILLEGAL_CMD when it is reserved (R88). -/
def runWord (w : Word) (s : State) : Host.Outcome State Fault Refusal :=
  match decode w with
  | .ok i => exec i s
  | .error _ => .next (s.raiseFault .illegalCmd)

end Sys2Proof.Machine
end

