-- ==== Sys2Proof/Machine/Step.lean ====
section
/-! DEFINITION. One step of the machine: the next event on the command port (R60). A command word runs its operation, a
reserved word raises ILLEGAL_CMD (R88, R211), RESET resets (R230). With nothing pending the block is idle and keeps its
state (R226). The fetch is `State.nextEvent` of Ops.lean, running a word
is `runWord` of Port.lean. -/

namespace Sys2Proof.Machine

/-- One step. -/
def step (s : State) : Host.Outcome State Fault Refusal :=
  match s.nextEvent with
  | none => .next s
  | some (.reset, s') => .next s'.resetEvent
  | some (.command c, s') => runWord c.word s'

/-- `s` with the command word `w` next on the command port, so that the next step runs it. Nothing else changes; the
port values that hold stay (log entry 3). -/
def State.withFetchWord (s : State) (_nbits w : Nat) : State := s.issueNext (BitVec.ofNat 16 w)

end Sys2Proof.Machine
end

