-- ==== Sys2Proof/Machine/Asm.lean ====
section
/-! DEFINITION. The assembler syntax of R91 and the pseudo-instructions of R92, a line as its characters: the mnemonic,
then its operands separated by commas. It is the spec's notation for programs on the command port; the block itself
never sees it. Blanks around a token carry no meaning; R91 says nothing of blanks, capitals or comments (log entry 12). -/

namespace Sys2Proof.Machine

/-- One line: an operation, a raw command word, or a pseudo-instruction with its bytes. -/
inductive AsmLine where
  | op (i : Instr)
  | word (w : Word)
  | crcBlock (bytes : List Byte)
  | rxpushN (bytes : List Byte)
deriving DecidableEq, Repr

/-- The operations a pseudo-instruction expands to (R92), in order. -/
def AsmLine.expand : AsmLine → List Instr
  | .op i => [i]
  | .word _ => []
  | .crcBlock bytes => bytes.map .crcUpdate
  | .rxpushN bytes => bytes.map .protRxpush

/-- The command words a line places on the port; `.word` places its word, reserved or not (R91). -/
def AsmLine.words : AsmLine → List Word
  | .word w => [w]
  | l => l.expand.map encode

/-- The value of a digit in base 10 or 16. -/
def digitValue (base : Nat) (ch : Char) : Option Nat :=
  let n := ch.toNat
  let v := if 48 ≤ n ∧ n ≤ 57 then n - 48
    else if 65 ≤ n ∧ n ≤ 70 then n - 55
    else if 97 ≤ n ∧ n ≤ 102 then n - 87
    else 16
  if v < base then some v else none

/-- The digits of a literal, most significant first. -/
def readDigits (base : Nat) : Nat → List Char → Option Nat
  | acc, [] => some acc
  | acc, ch :: rest => (digitValue base ch).bind fun v => readDigits base (acc * base + v) rest

/-- A decimal literal. -/
def readDecimal : List Char → Option Nat
  | [] => none
  | cs => readDigits 10 0 cs

/-- A 0x… literal. -/
def readHex : List Char → Option Nat
  | '0' :: 'x' :: ch :: cs => readDigits 16 0 (ch :: cs)
  | _ => none

/-- A byte: a decimal or 0x… literal 0 to 255. -/
def readByte (cs : List Char) : Option Byte :=
  ((readHex cs).orElse fun _ => readDecimal cs).bind fun n => if n ≤ 255 then some (BitVec.ofNat 8 n) else none

/-- A setpoint: a decimal -128 to 127. -/
def readSetpoint : List Char → Option (BitVec 8)
  | '-' :: cs => (readDecimal cs).bind fun n => if n ≤ 128 then some (-(BitVec.ofNat 8 n)) else none
  | cs => (readDecimal cs).bind fun n => if n ≤ 127 then some (BitVec.ofNat 8 n) else none

/-- A gate: 0 or 1. -/
def readGate : List Char → Option Bool
  | ['0'] => some false
  | ['1'] => some true
  | _ => none

/-- A motor: m0, m1 or m2. -/
def readMotor : List Char → Option Motor
  | ['m', '0'] => some .m0
  | ['m', '1'] => some .m1
  | ['m', '2'] => some .m2
  | _ => none

/-- A law: DIRECT, PD or PID. -/
def readLaw : List Char → Option Law
  | ['D', 'I', 'R', 'E', 'C', 'T'] => some .direct
  | ['P', 'D'] => some .pd
  | ['P', 'I', 'D'] => some .pid
  | _ => none

/-- The word of the directive `.word 0xhhhh`. -/
def readWord (cs : List Char) : Option Word :=
  (readHex cs).bind fun n => if n ≤ 65535 then some (BitVec.ofNat 16 n) else none

/-- All operands by one reader, or none. -/
def readAll {α : Type} (read : List Char → Option α) : List (List Char) → Option (List α)
  | [] => some []
  | cs :: rest => (read cs).bind fun a => (readAll read rest).map (a :: ·)

/-- One or more bytes (R92). -/
def readBytes : List (List Char) → Option (List Byte)
  | [] => none
  | ops => readAll readByte ops

/-- Drop the blanks at the front. -/
def skipBlanks : List Char → List Char
  | ' ' :: cs => skipBlanks cs
  | cs => cs

/-- Drop the blanks at both ends. -/
def trimBlanks (cs : List Char) : List Char := (skipBlanks (skipBlanks cs).reverse).reverse

/-- The characters up to the first blank, and the rest. -/
def splitBlank : List Char → List Char × List Char
  | [] => ([], [])
  | ' ' :: cs => ([], cs)
  | ch :: cs => let r := splitBlank cs; (ch :: r.1, r.2)

/-- The pieces between commas. -/
def splitCommas : List Char → List (List Char)
  | [] => [[]]
  | ',' :: cs => [] :: splitCommas cs
  | ch :: cs =>
    match splitCommas cs with
    | [] => [[ch]]
    | p :: ps => (ch :: p) :: ps

/-- The operands of a line: none when nothing follows the mnemonic. -/
def operandsOf (cs : List Char) : List (List Char) :=
  match trimBlanks cs with
  | [] => []
  | t => (splitCommas t).map trimBlanks

/-- An operation that takes a motor only. -/
def readMotorOp (mk : Motor → Instr) (ops : List (List Char)) : Option AsmLine :=
  match ops with
  | [m] => (readMotor m).map fun m => .op (mk m)
  | _ => none

/-- An operation without operands. -/
def readPlainOp (i : Instr) (ops : List (List Char)) : Option AsmLine :=
  if ops = [] then some (.op i) else none

/-- A mnemonic with its operands (R91, R92). -/
def readOperation (mn : List Char) (ops : List (List Char)) : Option AsmLine :=
  if mn = "CRC.INIT".toList then readPlainOp .crcInit ops
  else if mn = "CRC.UPDATE".toList then
    match ops with | [b] => (readByte b).map fun b => .op (.crcUpdate b) | _ => none
  else if mn = "CRC.READ".toList then readPlainOp .crcRead ops
  else if mn = "CRC.BLOCK".toList then (readBytes ops).map .crcBlock
  else if mn = "PROT.RXPUSH".toList then
    match ops with | [b] => (readByte b).map fun b => .op (.protRxpush b) | _ => none
  else if mn = "PROT.RXPUSHN".toList then (readBytes ops).map .rxpushN
  else if mn = "PROT.DECODE".toList then readPlainOp .protDecode ops
  else if mn = "PROT.TAKE".toList then readPlainOp .protTake ops
  else if mn = "PROT.SETGATE".toList then
    match ops with | [g] => (readGate g).map fun g => .op (.protSetgate g) | _ => none
  else if mn = "PROT.ENCODE".toList then readPlainOp .protEncode ops
  else if mn = "PROT.TXDONE".toList then readPlainOp .protTxdone ops
  else if mn = "SYS.NOP".toList then readPlainOp .sysNop ops
  else if mn = "SYS.STATUS".toList then readPlainOp .sysStatus ops
  else if mn = "MOT.SETSP".toList then
    match ops with
    | [m, sp] => (readMotor m).bind fun m => (readSetpoint sp).map fun sp => .op (.motSetsp m sp)
    | _ => none
  else if mn = "MOT.SETLAW".toList then
    match ops with
    | [m, law] => (readMotor m).bind fun m => (readLaw law).map fun law => .op (.motSetlaw m law)
    | _ => none
  else if mn = "MOT.TICK".toList then readMotorOp .motTick ops
  else if mn = "MOT.DIRECT".toList then readMotorOp .motDirect ops
  else if mn = "MOT.PD".toList then readMotorOp .motPd ops
  else if mn = "MOT.PID".toList then readMotorOp .motPid ops
  else if mn = "MOT.CLIM".toList then readMotorOp .motClim ops
  else if mn = "MOT.PLIM".toList then readMotorOp .motPlim ops
  else if mn = "MOT.ACT".toList then readMotorOp .motAct ops
  else if mn = ".word".toList then
    match ops with | [w] => (readWord w).map .word | _ => none
  else none

/-- Read one line (R91). -/
def readLine (cs : List Char) : Option AsmLine :=
  let r := splitBlank (skipBlanks cs)
  readOperation r.1 (operandsOf r.2)

end Sys2Proof.Machine
end

