-- ==== Sys2Proof/Machine/Frames.lean ====
section
/-! DEFINITION. The inbound wire format (R93 to R97) and the scan of header bytes (R122, R123, R137), for the statements
about the parser: what bytes a well-formed command frame is, and where a run of noise leaves the parser. -/

namespace Sys2Proof.Machine

/-- The bytes of one triple: r, g, b (R95). -/
def Rgb.bytes (t : Rgb) : List Byte := [t.r, t.g, t.b]

/-- The led bytes of a frame (R95): 48 when led_data is present. -/
def CommandFrame.ledBytes (f : CommandFrame) : List Byte :=
  match f.ledData with
  | some leds => leds.flatMap Rgb.bytes
  | none => []

/-- The bytes of a command frame after its header (R93): offsets 4 to 8, then the led data. -/
def CommandFrame.payload (f : CommandFrame) : List Byte :=
  [f.motorMode, f.m1, f.m2, f.m3, f.ledMode] ++ f.ledBytes

/-- The bytes of a command frame (R93). -/
def CommandFrame.bytes (c : Config) (f : CommandFrame) : List Byte := c.cmdHdr.toList ++ f.payload

/-- A frame that R29 allows: led_data is present exactly when led_mode = LED_CUSTOM, and is 16 triples. -/
def CommandFrame.Wf (c : Config) (f : CommandFrame) : Prop :=
  match f.ledData with
  | some leds => f.ledMode = c.ledCustom ∧ leds.length = 16
  | none => f.ledMode ≠ c.ledCustom

/-- Scan bytes in the header states by R122 and R123, one byte at a time: the state they leave the parser in, or none
when they complete a header on the way. -/
def scanHeader (c : Config) : PState → List Byte → Option PState
  | p, [] => some p
  | p, b :: rest =>
    match headerExpect c p with
    | some (want, after) =>
      if headerStep c p want after b = .motorData then none else scanHeader c (headerStep c p want after b) rest
    | none => none

end Sys2Proof.Machine
end

