-- ==== Sys2Proof/Safety.lean ====
section
/-! DEFINITION. What the statements call a good state and a run within the rules: the ranges 10_state.md gives each
state element (R27, R29, R42 to R48), the telemetry frame's integrity (R141, R145), the rule of use of R62, and a
configuration whose gains never leave the 32-bit range (R15, R212). -/

namespace Sys2Proof

/-- Gains and limits under which no checked intermediate can leave the 32-bit range (R15, R212): every term at the
greatest error, error change, integral and correction that R163, R165 and R168 allow. -/
structure Config.WellChosen (c : Config) : Prop where
  pd : 8128 + 33168 * c.kp.natAbs + 66336 * c.kd.natAbs ≤ 2147483647
  pid : 33168 * c.kps.natAbs + 64 * 33168 * c.kis.natAbs + 66336 * c.kds.natAbs ≤ 2147483647
  clim : 127 * c.clFactor + 65535 ≤ 2147483647
  limit : c.iLimit ≤ 65535

/-- The motor index m (R2, R80). -/
def Motor.index : Motor → Nat
  | .m0 => 0
  | .m1 => 1
  | .m2 => 2

end Sys2Proof

namespace Sys2Proof.Machine

/-- The ranges of a motor-loop unit: acc (R42), correction (R43, R168), decay_counter (R45), v (R47), the duties
(R48, R173), and the bounds on the errors that R163 and R165 derive. -/
structure MotorInv (c : Config) (u : MotorUnit) : Prop where
  acc_range : -8128 ≤ u.acc ∧ u.acc ≤ 8128
  correction_range : -(127 * (c.clFactor : Int)) ≤ u.correction ∧ u.correction ≤ 0
  decay_range : u.decayCounter ≤ c.decayMax
  v_range : -127 ≤ u.v ∧ u.v ≤ 127
  last_error_range : -33168 ≤ u.lastError ∧ u.lastError ≤ 33168
  integral_range : -(64 * 33168) < u.integralError ∧ u.integralError < 64 * 33168
  duty_range : u.dutyA ≤ 127 ∧ u.dutyB ≤ 127
  one_duty : u.dutyA = 0 ∨ u.dutyB = 0
  dutyA_direction : u.dutyA ≠ 0 → u.lastDirection = .positive
  dutyB_direction : u.dutyB ≠ 0 → u.lastDirection = .negative

/-- The protocol unit: rx_fifo within its capacity (R27), a staged frame that R29 allows, and in LEDDATA a work frame
that announced led data (R124). -/
structure ProtInv (s : State) : Prop where
  rx_capacity : s.rxFifo.length ≤ s.cfg.rxBufCap
  staged_wf : s.stagedValid = true → s.staged.Wf s.cfg
  work_custom : s.pstate = .ledData → s.work.ledMode = s.cfg.ledCustom

/-- A telemetry frame is whole: its length is 6 + BODY_LEN (R100) and its last two bytes are the CRC of all the others,
high byte first (R145). -/
def frameWhole (c : Config) (table : Vector Word 256) (frame : List Byte) : Prop :=
  frame.length = frameLength c ∧
    ∃ body : List Byte, frame = body ++ crcBytes (crcSeq table c.crcInit body)

/-- The send buffer: empty only while no send is in flight, and otherwise a whole frame (R32, R141). -/
structure TxInv (s : State) : Prop where
  busy_has_frame : s.txBusy = true → s.txBuf ≠ []
  whole : s.txBuf ≠ [] → frameWhole s.cfg s.crcTable s.txBuf

/-- The state invariant. -/
structure State.Inv (s : State) : Prop where
  motors : ∀ m : Motor, MotorInv s.cfg (s.motor m)
  prot : ProtInv s
  tx : TxInv s

/-- Every value of the list is a value of an element of the given width and signedness (R36). -/
def elementsInRange (width : Nat) (signed : Bool) (xs : List Int) : Prop :=
  ∀ x ∈ xs, if signed then -(2 : Int) ^ (8 * width - 1) ≤ x ∧ x < 2 ^ (8 * width - 1) else 0 ≤ x ∧ x < 2 ^ (8 * width)

/-- The values of one group: as many as its count, each in its range (R36). -/
def groupFits (g : TlmGroup) (xs : List Int) : Prop :=
  xs.length = g.count ∧ elementsInRange g.width g.signed xs

/-- The four elements of one motor, each in its range (R36). -/
def MotorSample.Fits (l : TlmLayout) (x : MotorSample) : Prop :=
  elementsInRange l.motorVoltage.width l.motorVoltage.signed [x.voltage] ∧
    elementsInRange l.motorClicks.width l.motorClicks.signed [x.clicks] ∧
    elementsInRange l.motorCurrent.width l.motorCurrent.signed [x.current] ∧
    elementsInRange l.motorTemperature.width l.motorTemperature.signed [x.temperature]

/-- A TelemetrySample of the layout: a value of the port TLM_IN (R36). -/
def TelemetrySample.Fits (l : TlmLayout) (t : TelemetrySample) : Prop :=
  groupFits l.voltage t.voltage ∧ groupFits l.chargeState t.chargeState ∧
    groupFits l.bankVoltage t.bankVoltage ∧ (∀ m : Motor, (t.motor m).Fits l) ∧
    groupFits l.accel t.accel ∧ groupFits l.mag t.mag ∧ groupFits l.gyro t.gyro ∧
    groupFits l.distance t.distance ∧ groupFits l.light t.light ∧ groupFits l.thermal t.thermal ∧
    groupFits l.errorRegister t.errorRegister ∧ groupFits l.lastCommandRead t.lastCommandRead ∧
    groupFits l.status t.status

/-- The table of R231: every state element of the block at its reset value. -/
structure ResetValues (t : State) : Prop where
  rsp : t.rsp = 0x0000#16
  crc : t.crc = t.cfg.crcInit
  pstate : t.pstate = .header1
  rx_fifo : t.rxFifo = []
  work : t.work = ⟨0#8, 0#8, 0#8, 0#8, 0#8⟩
  staged : t.staged = ⟨0#8, 0#8, 0#8, 0#8, 0#8, none⟩
  staged_valid : t.stagedValid = false
  cmd_disabled : t.cmdDisabled = false
  tx_buf : t.txBuf = []
  tx_busy : t.txBusy = false
  illegal_cmd : t.illegalCmd = false
  rx_overflow : t.rxOverflow = false
  arith_range : ∀ m : Motor, (t.motor m).arithRange = false
  setpoint : ∀ m : Motor, (t.motor m).setpoint = 0#8
  law : ∀ m : Motor, (t.motor m).law = .direct
  last_error : ∀ m : Motor, (t.motor m).lastError = 0
  integral_error : ∀ m : Motor, (t.motor m).integralError = 0
  acc : ∀ m : Motor, (t.motor m).acc = 0
  correction : ∀ m : Motor, (t.motor m).correction = 0
  ring : ∀ m : Motor, (t.motor m).ring = Vector.replicate 100 0#16
  ring_idx : ∀ m : Motor, (t.motor m).ringIdx = 0
  decay_counter : ∀ m : Motor, (t.motor m).decayCounter = 0
  last_direction : ∀ m : Motor, (t.motor m).lastDirection = .zero
  v : ∀ m : Motor, (t.motor m).v = 0
  duties : ∀ m : Motor, (t.motor m).dutyA = 0 ∧ (t.motor m).dutyB = 0

/-- The checks of PdStep (R163): its three named intermediates are in the 32-bit range. -/
def PdChecks (c : Config) (u : MotorUnit) (clk : Word) : Prop :=
  let e := u.setpoint.toInt * 4 - clk.toInt
  let de := e - u.lastError
  InRange32 (e * c.kp) ∧ InRange32 (de * c.kd) ∧ InRange32 (u.acc + e * c.kp + de * c.kd)

/-- The checks of PidStep (R165): its four named intermediates are in the 32-bit range. -/
def PidChecks (c : Config) (u : MotorUnit) (clk : Word) : Prop :=
  let e := u.setpoint.toInt * 4 - clk.toInt
  let de := e - u.lastError
  let ig := (u.integralError * 63).tdiv 64 + e
  InRange32 (e * c.kps) ∧ InRange32 (ig * c.kis) ∧ InRange32 (de * c.kds) ∧
    InRange32 (e * c.kps + ig * c.kis + de * c.kds)

/-- The checks of ClimStep (R168): its lower bound and the sum before the clamp are in the 32-bit range. -/
def ClimChecks (c : Config) (u : MotorUnit) (x : Int) (cur : Word) : Prop :=
  InRange32 (-(|x| * (c.clFactor : Int))) ∧ InRange32 (u.correction + ((c.iLimit : Int) - (cur.toNat : Int)))

/-- The checks of the law stage that law[m] selects (R175): those of R163 or R165 with a setpoint that is not neutral,
none in DIRECT (R167) or with a neutral setpoint (R162). -/
def LawChecks (c : Config) (u : MotorUnit) (clk : Word) : Prop :=
  match u.law with
  | .direct => True
  | .pd => Neutral u.setpoint.toInt ∨ PdChecks c u clk
  | .pid => Neutral u.setpoint.toInt ∨ PidChecks c u clk

/-- The duty command of the law stage that law[m] selects, where its checks hold (R162, R163, R165, R167). -/
def lawValue (c : Config) (u : MotorUnit) (clk : Word) : Int :=
  let e := u.setpoint.toInt * 4 - clk.toInt
  let de := e - u.lastError
  let ig := (u.integralError * 63).tdiv 64 + e
  match u.law with
  | .direct => max (-127) (min 127 u.setpoint.toInt)
  | .pd => if Neutral u.setpoint.toInt then 0 else max (-8128) (min 8128 (u.acc + e * c.kp + de * c.kd)) / 64
  | .pid =>
    if Neutral u.setpoint.toInt then 0 else max (-8128) (min 8128 (e * c.kps + ig * c.kis + de * c.kds)) / 64

/-- The checks of one tick (R175): those of its law stage, and those of the current limiter on the law's value. The
law stage leaves correction, which they read, as it was. -/
structure TickChecks (c : Config) (u : MotorUnit) (p : MotorPorts) : Prop where
  law : LawChecks c u p.measClicks
  clim : ClimChecks c u (lawValue c u p.measClicks) p.measCurrent

/-- Whether an agent issues an operation by the rule of use (R61, R62): the receive agent only PROT.RXPUSH and
PROT.DECODE, the transport agent only PROT.TXDONE, the tick agent everything but PROT.RXPUSH and PROT.TXDONE. -/
def Agent.mayIssue : Agent → Instr → Bool
  | .receive, .protRxpush _ => true
  | .receive, .protDecode => true
  | .receive, _ => false
  | .transport, .protTxdone => true
  | .transport, _ => false
  | .tick, .protRxpush _ => false
  | .tick, .protTxdone => false
  | .tick, _ => true

/-- An event on the command port that follows the rule of use; a reserved word follows none. -/
def PortEvent.followsRule : PortEvent → Bool
  | .reset => true
  | .command c =>
    match decode c.word with
    | .ok i => c.agent.mayIssue i
    | .error _ => false

/-- The motor-loop unit an operation acts on, if it is a motor-loop operation (R85). -/
def operationUnit : Instr → Option Motor
  | .motSetsp m _ | .motSetlaw m _ | .motTick m | .motDirect m | .motPd m | .motPid m | .motClim m | .motPlim m
  | .motAct m => some m
  | .crcInit | .crcUpdate _ | .crcRead | .protRxpush _ | .protDecode | .protTake | .protSetgate _ | .protEncode
  | .protTxdone | .sysNop | .sysStatus => none

/-- Run operations one after the other on the same port values, stopping at a fault or a refusal. -/
def execAll : List Instr → State → Host.Outcome State Fault Refusal
  | [], s => .next s
  | i :: rest, s =>
    match exec i s with
    | .next t => execAll rest t
    | .fault r => .fault r
    | .refused r => .refused r

/-- The law stage that law[m] selects, as an operation of its own (R164, R166, R167, R175). -/
def lawOperation (m : Motor) : Law → Instr
  | .direct => .motDirect m
  | .pd => .motPd m
  | .pid => .motPid m

end Sys2Proof.Machine
end

