-- ==== Sys2Proof/Certificates/Slice0/Obligations.lean ====
section
/-! DEFINITION. The statements about the model, for the provers: each `def Obligations.<Name> : Prop` formalises what its
docstring names. OBLIGATIONS.json lists them with their rules. -/

open Sys2Proof Sys2Proof.Machine

/-! ### Encoding -/

/-- R80 to R88: decode and encode agree on every operation, with every operand at every value. -/
def Obligations.DecodeEncodeAgree : Prop :=
  ∀ i : Instr, decode (encode i) = .ok i

/-- R90: a word that decodes is the word of its operation and of no other, so no two rows overlap. -/
def Obligations.DecodedWordIsItsEncoding : Prop :=
  ∀ (w : Word) (i : Instr), decode w = .ok i → encode i = w

/-- R88: each of the 65536 words is an operation or reserved. The decoder also names the first ground that holds, UNIT,
OP and then the IMM8 constraints as R90 orders decoding. That it names a ground at all, and an unused IMM8 bit before
law 3, is the model's choice (log entry 17): the block reports no ground. -/
def Obligations.DecoderNamesGroundOfReservedWord : Prop :=
  ∀ w : Word,
    ((∃ i, decode w = .ok i) ↔ isReserved w = false) ∧
    (decode w = .error .unit ↔ unitExists w = false) ∧
    (decode w = .error .op ↔ unitExists w = true ∧ opExists w = false) ∧
    (decode w = .error .imm ↔ unitExists w = true ∧ opExists w = true ∧ immAllowed w = false) ∧
    (decode w = .error .law ↔
      unitExists w = true ∧ opExists w = true ∧ immAllowed w = true ∧ lawAllowed w = false)

/-- R82 to R86: words written out from the tables, one or more of each unit, decode to the operations they stand for.
-/
def Obligations.WrittenOutWordsDecode : Prop :=
  decode 0b0000000111111111#16 = .ok (.crcUpdate 0xFF#8) ∧
  decode 0b0001000010101010#16 = .ok (.protRxpush 0xAA#8) ∧
  decode 0b0001001100000001#16 = .ok (.protSetgate true) ∧
  decode 0b0010000100000000#16 = .ok .sysStatus ∧
  decode 0b1000000011001110#16 = .ok (.motSetsp .m0 (-50#8)) ∧
  decode 0b1001000100000001#16 = .ok (.motSetlaw .m1 .pd) ∧
  decode 0b1010100000000000#16 = .ok (.motAct .m2)

/-! ### The step -/

/-- R60, R70, R80: when the next word on the command port decodes to an operation, the step is that operation, on the
state with the word taken off the port and the port values it came with. How words and port values wait on the port is
the model's choice (log entries 1 and 2). -/
def Obligations.StepRunsDecodedOperation : Prop :=
  ∀ (s : State) (c : Issue) (rest : List PortEvent) (i : Instr),
    s.pending = .command c :: rest → decode c.word = .ok i →
    step s = exec i { s with pending := rest, ports := c.ports }

/-- R88, R211: a reserved word sets ILLEGAL_CMD and changes no other element of the block. -/
def Obligations.ReservedWordSetsIllegalCmdOnly : Prop :=
  ∀ (s : State) (c : Issue) (rest : List PortEvent),
    s.pending = .command c :: rest → isReserved c.word = true →
    step s = .next { s with pending := rest, ports := c.ports, illegalCmd := true }

/-- R230, R231: RESET sets every state element to its reset value in one step, keeps the parameters and the contents
of CRC_TABLE, and emits nothing on cmd_out; the derived views are then 0. That the events already emitted stay in the
model's list of them is inferred (log entry 8), as is how RESET waits on the port (log entry 2). -/
def Obligations.ResetEventRestoresEveryElement : Prop :=
  ∀ (s : State) (rest : List PortEvent), s.pending = .reset :: rest →
    ∃ t, step s = .next t ∧ ResetValues t ∧ t.cfg = s.cfg ∧ t.crcTable = s.crcTable ∧ t.cmdOut = s.cmdOut ∧
      t.statusWord = 0x0000#16 ∧ t.frameReady = false

/-- R231: the state after power-on has every element at its reset value, parameters that R9 allows, CRC_INIT at its
default 0x0000, and the derived views 0. -/
def Obligations.PowerOnStateHasResetValues : Prop :=
  ResetValues State.reset ∧ State.reset.cfg.Wf ∧ State.reset.crc = 0x0000#16 ∧
    State.reset.statusWord = 0x0000#16 ∧ State.reset.frameReady = false

/-- R226: between operations the block is idle and every element keeps its value. That a step with nothing on the
command port stands for that idle time is the model's choice (log entry 2). -/
def Obligations.IdleStepKeepsState : Prop :=
  ∀ s : State, s.pending = [] → step s = .next s

/-- R210: no fault stops the block, whatever is on the command port. -/
def Obligations.NoStepStopsTheBlock : Prop :=
  ∀ s : State, ∃ t, step s = .next t

/-- R61: the block does not look at which agent issued an operation. -/
def Obligations.StepIgnoresAgent : Prop :=
  ∀ (s : State) (a b : Agent) (w : Word) (p : InPorts) (rest : List PortEvent),
    step { s with pending := .command ⟨a, w, p⟩ :: rest } = step { s with pending := .command ⟨b, w, p⟩ :: rest }

/-- R61, R62, R250: a command issued by the rule of use is no reserved word, and each agent keeps to its elements: the
receive agent to the parser, the staged frame and rx_fifo, the transport agent to tx_busy; the tick agent never adds
to rx_fifo and never ends a send. -/
def Obligations.AgentsKeepToTheirElements : Prop :=
  ∀ (s t : State) (c : Issue) (rest : List PortEvent), s.pending = .command c :: rest →
    (PortEvent.command c).followsRule = true → step s = .next t →
    t.illegalCmd = s.illegalCmd ∧
    (c.agent = .receive → t = { s with
      pending := rest, ports := c.ports, pstate := t.pstate, rxFifo := t.rxFifo, work := t.work, staged := t.staged,
      stagedValid := t.stagedValid, rsp := t.rsp, rxOverflow := t.rxOverflow }) ∧
    (c.agent = .transport → t = { s with pending := rest, ports := c.ports, txBusy := false }) ∧
    (c.agent = .tick → t.rxFifo.length ≤ s.rxFifo.length ∧ t.rxOverflow = s.rxOverflow ∧
      (s.txBusy = true → t.txBusy = true))

/-! ### CRC unit -/

/-- R111: CRC.INIT, word 0x0000, writes CRC_INIT to crc and changes nothing else. -/
def Obligations.CrcInitLoadsInitialValue : Prop :=
  decode 0x0000#16 = .ok .crcInit ∧ ∀ s : State, exec .crcInit s = .next { s with crc := s.cfg.crcInit }

/-- R110, R112: CRC.UPDATE b, word 0x0100 + b, shifts crc left by a byte modulo 2^16, combines it with the table entry
at the old high byte xor b, and changes nothing else. -/
def Obligations.CrcUpdateUsesTableEntry : Prop :=
  ∀ (b : Byte) (s : State), decode (BitVec.ofNat 16 (0x0100 + b.toNat)) = .ok (.crcUpdate b) ∧
    exec (.crcUpdate b) s = .next { s with
      crc := BitVec.ofNat 16 (s.crc.toNat * 256) ^^^ s.crcTable.toList.getD (s.crc.toNat / 256 ^^^ b.toNat) 0#16 }

/-- R114: CRC.READ, word 0x0200, copies crc to rsp and changes nothing else. -/
def Obligations.CrcReadAnswersCrc : Prop :=
  decode 0x0200#16 = .ok .crcRead ∧ ∀ s : State, exec .crcRead s = .next { s with rsp := s.crc }

/-- R92, R115: the operations CRC.BLOCK expands to leave in crc the CRC of the bytes in order, and change nothing
else. -/
def Obligations.CrcBlockLeavesCrcOfBytes : Prop :=
  ∀ (bytes : List Byte) (s : State),
    execAll (AsmLine.crcBlock bytes).expand s = .next { s with crc := crcSeq s.crcTable s.crc bytes }

/-- R116: over a table generated from any polynomial, a sequence followed by its own CRC, high byte first, has CRC 0.
-/
def Obligations.AppendedCrcLeavesZero : Prop :=
  ∀ (poly start : Word) (bytes : List Byte),
    crcSeq (generatedTable poly) start (bytes ++ crcBytes (crcSeq (generatedTable poly) start bytes)) = 0x0000#16

/-! ### Telemetry -/

/-- R141 to R143: PROT.ENCODE, word 0x1400, answers 0x0000 and changes nothing else while a send is in flight;
otherwise it builds the frame of the sample on TLM_IN, its CRC taken over all bytes before it and sent high byte
first, leaves the CRC in crc, sets tx_busy and answers the frame's length. -/
def Obligations.EncodeBuildsFrameUnlessBusy : Prop :=
  ∀ (s : State) (body : List Byte) (crc : Word),
    body = s.cfg.tlmHdr.toList ++ serialize s.cfg s.ports.tlmIn → crc = crcSeq s.crcTable s.cfg.crcInit body →
    decode 0x1400#16 = .ok .protEncode ∧
    (s.txBusy = true → exec .protEncode s = .next { s with rsp := 0x0000#16 }) ∧
    (s.txBusy = false → exec .protEncode s = .next { s with
      crc := crc
      txBuf := body ++ [crc.extractLsb' 8 8, crc.extractLsb' 0 8]
      txBusy := true
      rsp := BitVec.ofNat 16 (6 + s.cfg.tlmLayout.bodyLen) })

/-- R98, R100, R143, R145: every frame has 6 + BODY_LEN bytes: the header, the serialized sample, and the CRC of all
the bytes before, high byte first. -/
def Obligations.TelemetryFrameLayout : Prop :=
  ∀ (c : Config) (table : Vector Word 256) (t : TelemetrySample),
    (telemetryFrame c table t).length = 6 + c.tlmLayout.bodyLen ∧
    (telemetryFrame c table t).take 4 = [c.tlmHdr.b0, c.tlmHdr.b1, c.tlmHdr.b2, c.tlmHdr.b3] ∧
    ((telemetryFrame c table t).drop 4).take c.tlmLayout.bodyLen = serialize c t ∧
    ∃ crc : Word, crc = crcSeq table c.crcInit ((telemetryFrame c table t).take (4 + c.tlmLayout.bodyLen)) ∧
      (telemetryFrame c table t).drop (4 + c.tlmLayout.bodyLen) = [crc.extractLsb' 8 8, crc.extractLsb' 0 8]

/-- R66, R99: an element of width w is w bytes that spell its value modulo 2^(8w), most significant first when
TLM_BIG_ENDIAN and in the opposite order otherwise. -/
def Obligations.ElementBytesSpellValue : Prop :=
  ∀ (w : Nat) (x : Int),
    (elementBytes true w x).length = w ∧
    (((elementBytes true w x).foldl (fun n b => n * 256 + b.toNat) 0 : Nat) : Int) = x % 2 ^ (8 * w) ∧
    elementBytes false w x = (elementBytes true w x).reverse

/-- R99, R140: a sample of the layout is serialized group by group in the fixed order, each group's elements in index
order, and group 4 motor by motor, each motor's voltage, clicks, current, temperature. -/
def Obligations.SerializeKeepsGroupOrder : Prop :=
  ∀ (c : Config) (t : TelemetrySample), t.Fits c.tlmLayout →
    serialize c t =
      t.voltage.flatMap (elementBytes c.tlmBigEndian c.tlmLayout.voltage.width) ++
      t.chargeState.flatMap (elementBytes c.tlmBigEndian c.tlmLayout.chargeState.width) ++
      t.bankVoltage.flatMap (elementBytes c.tlmBigEndian c.tlmLayout.bankVoltage.width) ++
      [t.motor0, t.motor1, t.motor2].flatMap (fun x =>
        elementBytes c.tlmBigEndian c.tlmLayout.motorVoltage.width x.voltage ++
        elementBytes c.tlmBigEndian c.tlmLayout.motorClicks.width x.clicks ++
        elementBytes c.tlmBigEndian c.tlmLayout.motorCurrent.width x.current ++
        elementBytes c.tlmBigEndian c.tlmLayout.motorTemperature.width x.temperature) ++
      t.accel.flatMap (elementBytes c.tlmBigEndian c.tlmLayout.accel.width) ++
      t.mag.flatMap (elementBytes c.tlmBigEndian c.tlmLayout.mag.width) ++
      t.gyro.flatMap (elementBytes c.tlmBigEndian c.tlmLayout.gyro.width) ++
      t.distance.flatMap (elementBytes c.tlmBigEndian c.tlmLayout.distance.width) ++
      t.light.flatMap (elementBytes c.tlmBigEndian c.tlmLayout.light.width) ++
      t.thermal.flatMap (elementBytes c.tlmBigEndian c.tlmLayout.thermal.width) ++
      t.errorRegister.flatMap (elementBytes c.tlmBigEndian c.tlmLayout.errorRegister.width) ++
      t.lastCommandRead.flatMap (elementBytes c.tlmBigEndian c.tlmLayout.lastCommandRead.width) ++
      t.status.flatMap (elementBytes c.tlmBigEndian c.tlmLayout.status.width)

/-- R144: PROT.TXDONE, word 0x1500, clears tx_busy and changes nothing else. -/
def Obligations.TxdoneClearsBusy : Prop :=
  decode 0x1500#16 = .ok .protTxdone ∧ ∀ s : State, exec .protTxdone s = .next { s with txBusy := false }

/-- R32, R76, R240: while a send is in flight no operation changes tx_buf; only RESET can. -/
def Obligations.SendBufferKeptWhileBusy : Prop :=
  ∀ s t : State, step s = .next t → s.txBusy = true → s.pending.head? ≠ some .reset → t.txBuf = s.txBuf

/-! ### Command frames -/

/-- R120: PROT.RXPUSH b, word 0x1000 + b, appends its byte while rx_fifo has room; on a full rx_fifo the byte is
dropped and only RX_OVERFLOW changes. -/
def Obligations.RxpushAppendsOrOverflows : Prop :=
  ∀ (b : Byte) (s : State), decode (BitVec.ofNat 16 (0x1000 + b.toNat)) = .ok (.protRxpush b) ∧
    (s.rxFifo.length < s.cfg.rxBufCap → exec (.protRxpush b) s = .next { s with rxFifo := s.rxFifo ++ [b] }) ∧
    (s.cfg.rxBufCap ≤ s.rxFifo.length → exec (.protRxpush b) s = .next { s with rxOverflow := true })

/-- R122, R123: one byte in a header state advances the parser when it is the byte awaited, else sends it to HEADER1,
or to HEADER2 under RESYNC_RECHECK when it could be a first header byte; nothing but pstate, rx_fifo and rsp changes.
-/
def Obligations.HeaderByteAdvancesOrResyncs : Prop :=
  ∀ (s : State) (b want : Byte) (p after : PState),
    (p, want, after) ∈ [(PState.header1, s.cfg.cmdHdr.b0, PState.header2), (.header2, s.cfg.cmdHdr.b1, .header3),
      (.header3, s.cfg.cmdHdr.b2, .header4), (.header4, s.cfg.cmdHdr.b3, .motorData)] →
    s.pstate = p → s.rxFifo = [b] → 1 ≤ s.cfg.decodeBound →
    exec .protDecode s = .next { s with
      rxFifo := []
      pstate :=
        if b = want then after
        else if s.cfg.resyncRecheck = true ∧ p ≠ .header1 ∧ b = s.cfg.cmdHdr.b0 then .header2
        else .header1
      rsp := 0x0001#16 }

/-- R124 to R129: in MOTORDATA five bytes become the work frame. Unless its led_mode is LED_CUSTOM it is staged without
led data. If it is, the same call stages it with the 16 triples of the 48 bytes that follow when they are there and
DECODE_BOUND allows them; otherwise the parser waits for the led data. -/
def Obligations.MotorDataStagesOrAwaitsLeds : Prop :=
  ∀ (s : State) (d0 d1 d2 d3 d4 : Byte) (rest : List Byte),
    s.pstate = .motorData → s.rxFifo = d0 :: d1 :: d2 :: d3 :: d4 :: rest → 5 ≤ s.cfg.decodeBound →
    (d4 ≠ s.cfg.ledCustom → exec .protDecode s = .next { s with
      rxFifo := rest
      pstate := .header1
      work := ⟨d0, d1, d2, d3, d4⟩
      staged := ⟨d0, d1, d2, d3, d4, none⟩
      stagedValid := true
      rsp := 0x8005#16 }) ∧
    (d4 = s.cfg.ledCustom → 48 ≤ rest.length → 53 ≤ s.cfg.decodeBound →
      ∃ leds : List Rgb, leds.length = 16 ∧
        (∀ i < 16, leds[i]? = some ⟨rest.getD (3 * i) 0#8, rest.getD (3 * i + 1) 0#8, rest.getD (3 * i + 2) 0#8⟩) ∧
        exec .protDecode s = .next { s with
          rxFifo := rest.drop 48
          pstate := .header1
          work := ⟨d0, d1, d2, d3, d4⟩
          staged := ⟨d0, d1, d2, d3, d4, some leds⟩
          stagedValid := true
          rsp := 0x8035#16 }) ∧
    (d4 = s.cfg.ledCustom → rest.length < 48 ∨ s.cfg.decodeBound < 53 → exec .protDecode s = .next { s with
      rxFifo := rest
      pstate := .ledData
      work := ⟨d0, d1, d2, d3, d4⟩
      rsp := 0x0005#16 })

/-- R95, R125: in LEDDATA 48 bytes become 16 triples, byte j channel j mod 3 of triple floor(j / 3), and the work
frame is staged with them. -/
def Obligations.LedDataStagesTriples : Prop :=
  ∀ s : State, s.pstate = .ledData → 48 ≤ s.rxFifo.length → 48 ≤ s.cfg.decodeBound →
    ∃ leds : List Rgb, leds.length = 16 ∧
      (∀ i < 16, leds[i]? =
        some ⟨s.rxFifo.getD (3 * i) 0#8, s.rxFifo.getD (3 * i + 1) 0#8, s.rxFifo.getD (3 * i + 2) 0#8⟩) ∧
      exec .protDecode s = .next { s with
        rxFifo := s.rxFifo.drop 48
        pstate := .header1
        staged := ⟨s.work.motorMode, s.work.m1, s.work.m2, s.work.m3, s.work.ledMode, some leds⟩
        stagedValid := true
        rsp := 0x8030#16 }

/-- R126: with fewer bytes than its state needs, a PROT.DECODE call consumes nothing and changes only rsp. -/
def Obligations.DecodeWaitsForWholeField : Prop :=
  ∀ s : State,
    (s.rxFifo = [] ∨ (s.pstate = .motorData ∧ s.rxFifo.length < 5) ∨ (s.pstate = .ledData ∧ s.rxFifo.length < 48)) →
    exec .protDecode s = .next { s with rsp := 0x0000#16 }

/-- R126 to R128: a PROT.DECODE call consumes at most DECODE_BOUND bytes, from the front of rx_fifo, answers their
number and whether it staged a frame, and ends only because it staged a frame or because the next field is not whole
in rx_fifo or would pass DECODE_BOUND. It changes no element but pstate, rx_fifo, work, staged, staged_valid and rsp.
-/
def Obligations.DecodeEndsAtFrameOrShortage : Prop :=
  ∀ s : State, s.cfg.decodeBound ≤ 32767 →
    ∃ (t : State) (n : Nat), exec .protDecode s = .next t ∧
      n ≤ s.cfg.decodeBound ∧ n ≤ s.rxFifo.length ∧ t.rxFifo = s.rxFifo.drop n ∧ t.rsp.toNat % 32768 = n ∧
      t = { s with pstate := t.pstate, rxFifo := t.rxFifo, work := t.work, staged := t.staged,
                   stagedValid := t.stagedValid, rsp := t.rsp } ∧
      (t.rsp.msb = true → t.stagedValid = true ∧ t.pstate = .header1) ∧
      (t.rsp.msb = false → t.staged = s.staged ∧ t.stagedValid = s.stagedValid ∧
        (match t.pstate with
          | .motorData => t.rxFifo.length < 5 ∨ s.cfg.decodeBound < n + 5
          | .ledData => t.rxFifo.length < 48 ∨ s.cfg.decodeBound < n + 48
          | _ => t.rxFifo = [] ∨ s.cfg.decodeBound < n + 1))

/-- R137: if the noise before a well-formed frame leaves the header scan in HEADER1, and noise and frame are within
DECODE_BOUND, one PROT.DECODE call consumes exactly the noise and the frame and stages the frame. -/
def Obligations.ParserResynchronisesAfterNoise : Prop :=
  ∀ (s : State) (noise rest : List Byte) (f : CommandFrame),
    s.cfg.Wf → f.Wf s.cfg → s.rxFifo = noise ++ f.bytes s.cfg ++ rest →
    scanHeader s.cfg s.pstate noise = some .header1 →
    noise.length + (f.bytes s.cfg).length ≤ s.cfg.decodeBound →
    exec .protDecode s = .next { s with
      rxFifo := rest
      pstate := .header1
      work := ⟨f.motorMode, f.m1, f.m2, f.m3, f.ledMode⟩
      staged := f
      stagedValid := true
      rsp := BitVec.ofNat 16 (32768 + noise.length + (f.bytes s.cfg).length) }

/-- R137: noise that holds no complete header and has no proper prefix of the header as a suffix leaves the header
scan in HEADER1 (RESYNC_RECHECK = false). -/
def Obligations.HeaderFreeNoiseEndsInHeader1 : Prop :=
  ∀ (c : Config) (noise : List Byte), c.resyncRecheck = false →
    ¬ c.cmdHdr.toList <:+: noise → (∀ k, 1 ≤ k → k ≤ 3 → ¬ c.cmdHdr.toList.take k <:+ noise) →
    scanHeader c .header1 noise = some .header1

/-- R136: whatever DECODE_BOUND allows per call, repeated PROT.DECODE calls stage the frame that follows the noise and
consume exactly the noise and the frame. -/
def Obligations.RepeatedDecodeReachesFrame : Prop :=
  ∀ (s : State) (noise rest : List Byte) (f : CommandFrame),
    s.cfg.Wf → f.Wf s.cfg → s.rxFifo = noise ++ f.bytes s.cfg ++ rest →
    scanHeader s.cfg s.pstate noise = some .header1 →
    ∃ (k : Nat) (t : State), execAll (List.replicate k .protDecode) s = .next t ∧
      t.staged = f ∧ t.stagedValid = true ∧ t.pstate = .header1 ∧ t.rxFifo = rest

/-- R132, R133, R135: PROT.TAKE, word 0x1200, answers 0x0000 and emits nothing when no frame is staged; otherwise it
clears staged_valid, keeps staged, and emits one event: the motor part if commands are enabled or motor_mode is an
enable code, else SUPPRESSED, and the led part in every case; bits 15 and 14 of rsp say so beside the motor_mode. -/
def Obligations.TakeForwardsThroughGate : Prop :=
  ∀ s : State, decode 0x1200#16 = .ok .protTake ∧
    (s.stagedValid = false → exec .protTake s = .next { s with rsp := 0x0000#16 }) ∧
    (s.stagedValid = true →
      ((s.cmdDisabled = false ∨
          s.staged.motorMode ∈ [s.cfg.modeEnCharging, s.cfg.modeEnVref, s.cfg.modeEnAmp]) →
        exec .protTake s = .next { s with
          stagedValid := false
          cmdOut := s.cmdOut ++ [⟨.forward s.staged.motorMode s.staged.m1 s.staged.m2 s.staged.m3,
            s.staged.ledMode, s.staged.ledData⟩]
          rsp := BitVec.ofNat 16 (0xC000 + s.staged.motorMode.toNat) }) ∧
      ((s.cmdDisabled = true ∧
          s.staged.motorMode ∉ [s.cfg.modeEnCharging, s.cfg.modeEnVref, s.cfg.modeEnAmp]) →
        exec .protTake s = .next { s with
          stagedValid := false
          cmdOut := s.cmdOut ++ [⟨.suppressed, s.staged.ledMode, s.staged.ledData⟩]
          rsp := BitVec.ofNat 16 (0x8000 + s.staged.motorMode.toNat) }))

/-- R134: PROT.SETGATE g, words 0x1300 and 0x1301, writes cmd_disabled and changes nothing else; with an IMM8[7:1]
that is not 0 the word is reserved. -/
def Obligations.SetgateWritesGate : Prop :=
  decode 0x1300#16 = .ok (.protSetgate false) ∧ decode 0x1301#16 = .ok (.protSetgate true) ∧
  (∀ imm : Byte, 2 ≤ imm.toNat → isReserved (BitVec.ofNat 16 (0x1300 + imm.toNat)) = true) ∧
  ∀ (g : Bool) (s : State), exec (.protSetgate g) s = .next { s with cmdDisabled := g }

/-! ### Motor-loop units -/

/-- R160: MOT.SETSP m, sp, word 0x8000 + sp + 0x1000·m, writes the setpoint of its unit and changes nothing else. -/
def Obligations.SetspWritesSetpoint : Prop :=
  ∀ (m : Motor) (sp : BitVec 8) (s : State),
    decode (BitVec.ofNat 16 (0x8000 + 0x1000 * m.index + sp.toNat)) = .ok (.motSetsp m sp) ∧
    exec (.motSetsp m sp) s = .next (s.setMotor m { s.motor m with setpoint := sp })

/-- R161: MOT.SETLAW m, law, word 0x8100 + law + 0x1000·m, writes the law of its unit and changes nothing else, the
law state included; with law 3 the word is reserved. -/
def Obligations.SetlawWritesLaw : Prop :=
  ∀ (m : Motor) (law : Law) (s : State),
    decode (BitVec.ofNat 16 (0x8100 + 0x1000 * m.index + law.code.toNat)) = .ok (.motSetlaw m law) ∧
    isReserved (BitVec.ofNat 16 (0x8103 + 0x1000 * m.index)) = true ∧
    exec (.motSetlaw m law) s = .next (s.setMotor m { s.motor m with law := law })

/-- R167: MOT.DIRECT m, word 0x8300 + 0x1000·m, leaves the setpoint, clamped to [-127, 127], in v and changes nothing
else. -/
def Obligations.DirectClampsSetpoint : Prop :=
  ∀ (m : Motor) (s : State),
    decode (BitVec.ofNat 16 (0x8300 + 0x1000 * m.index)) = .ok (.motDirect m) ∧
    exec (.motDirect m) s =
      .next (s.setMotor m { s.motor m with v := max (-127) (min 127 (s.motor m).setpoint.toInt) })

/-- R163, R164: MOT.PD m, word 0x8400 + 0x1000·m. With a setpoint that is not neutral and checks that hold it adds
error·KP + Δerror·KD to acc, clamps it to [-8128, 8128], keeps the error and leaves floor(acc / 64) in v; with a
neutral setpoint it leaves 0 in v and the law state as R162 says; when a check fails it raises ARITH_RANGE[m] and
forces the unit safe. Nothing else changes. -/
def Obligations.PdAccumulatesAndShifts : Prop :=
  ∀ (m : Motor) (s : State) (u : MotorUnit) (clk : Word) (e a : Int),
    u = s.motor m → clk = (s.ports.motor m).measClicks → e = u.setpoint.toInt * 4 - clk.toInt →
    a = max (-8128) (min 8128 (u.acc + e * s.cfg.kp + (e - u.lastError) * s.cfg.kd)) →
    decode (BitVec.ofNat 16 (0x8400 + 0x1000 * m.index)) = .ok (.motPd m) ∧
    (u.setpoint.toInt = 0 ∨ 100 < u.setpoint.toInt ∨ u.setpoint.toInt < -100 →
      exec (.motPd m) s = .next (s.setMotor m
        (if s.cfg.neutralClears = true then { u with lastError := 0, integralError := 0, acc := 0, v := 0 }
         else { u with v := 0 }))) ∧
    (u.setpoint.toInt ≠ 0 → -100 ≤ u.setpoint.toInt → u.setpoint.toInt ≤ 100 →
      (PdChecks s.cfg u clk →
        exec (.motPd m) s = .next (s.setMotor m { u with acc := a, lastError := e, v := a / 64 })) ∧
      (¬ PdChecks s.cfg u clk →
        exec (.motPd m) s = .next (s.setMotor m
          { u with arithRange := true, dutyA := 0, dutyB := 0, lastDirection := .zero })))

/-- R165, R166: MOT.PID m, word 0x8500 + 0x1000·m. With a setpoint that is not neutral and checks that hold it leaks
the integral by 63/64 truncating toward zero and adds the error, sets acc to the clamped sum of the three terms, keeps
the error and leaves floor(acc / 64) in v; with a neutral setpoint it leaves 0 in v and the law state as R162 says;
when a check fails it raises ARITH_RANGE[m] and forces the unit safe. Nothing else changes. -/
def Obligations.PidLeaksAndCombines : Prop :=
  ∀ (m : Motor) (s : State) (u : MotorUnit) (clk : Word) (e ig a : Int),
    u = s.motor m → clk = (s.ports.motor m).measClicks → e = u.setpoint.toInt * 4 - clk.toInt →
    ig = (u.integralError * 63).tdiv 64 + e →
    a = max (-8128) (min 8128 (e * s.cfg.kps + ig * s.cfg.kis + (e - u.lastError) * s.cfg.kds)) →
    decode (BitVec.ofNat 16 (0x8500 + 0x1000 * m.index)) = .ok (.motPid m) ∧
    (u.setpoint.toInt = 0 ∨ 100 < u.setpoint.toInt ∨ u.setpoint.toInt < -100 →
      exec (.motPid m) s = .next (s.setMotor m
        (if s.cfg.neutralClears = true then { u with lastError := 0, integralError := 0, acc := 0, v := 0 }
         else { u with v := 0 }))) ∧
    (u.setpoint.toInt ≠ 0 → -100 ≤ u.setpoint.toInt → u.setpoint.toInt ≤ 100 →
      (PidChecks s.cfg u clk →
        exec (.motPid m) s =
          .next (s.setMotor m { u with integralError := ig, acc := a, lastError := e, v := a / 64 })) ∧
      (¬ PidChecks s.cfg u clk →
        exec (.motPid m) s = .next (s.setMotor m
          { u with arithRange := true, dutyA := 0, dutyB := 0, lastDirection := .zero })))

/-- R162: with a neutral setpoint MOT.PD and MOT.PID leave 0 in v, raise no fault, and keep the law state or, when
NEUTRAL_CLEARS, set it to 0. -/
def Obligations.NeutralSetpointGivesZero : Prop :=
  ∀ (m : Motor) (s : State) (u : MotorUnit), u = s.motor m →
    (u.setpoint.toInt = 0 ∨ 100 < u.setpoint.toInt ∨ u.setpoint.toInt < -100) →
    ∀ i ∈ [Instr.motPd m, Instr.motPid m],
      exec i s = .next (s.setMotor m
        (if s.cfg.neutralClears = true then { u with lastError := 0, integralError := 0, acc := 0, v := 0 }
         else { u with v := 0 }))

/-- R212: when a checked intermediate of MOT.PD, MOT.PID, MOT.CLIM or MOT.TICK is outside the 32-bit range, every
write of the operation is abandoned, ARITH_RANGE[m] is set and the unit is forced safe; nothing else changes. -/
def Obligations.RangeFaultForcesUnitSafe : Prop :=
  ∀ (m : Motor) (s : State) (u safe : MotorUnit) (p : MotorPorts),
    u = s.motor m → p = s.ports.motor m →
    safe = { u with arithRange := true, dutyA := 0, dutyB := 0, lastDirection := .zero } →
    (u.setpoint.toInt ≠ 0 → -100 ≤ u.setpoint.toInt → u.setpoint.toInt ≤ 100 →
      (¬ PdChecks s.cfg u p.measClicks → exec (.motPd m) s = .next (s.setMotor m safe) ∧
        (u.law = .pd → exec (.motTick m) s = .next (s.setMotor m safe))) ∧
      (¬ PidChecks s.cfg u p.measClicks → exec (.motPid m) s = .next (s.setMotor m safe) ∧
        (u.law = .pid → exec (.motTick m) s = .next (s.setMotor m safe)))) ∧
    (¬ ClimChecks s.cfg u u.v p.measCurrent → exec (.motClim m) s = .next (s.setMotor m safe)) ∧
    (∀ (u1 : MotorUnit) (x : Int), u.lawStep s.cfg p.measClicks = some (u1, x) →
      ¬ ClimChecks s.cfg u x p.measCurrent → exec (.motTick m) s = .next (s.setMotor m safe))

/-- R169 (R168): MOT.CLIM m, word 0x8600 + 0x1000·m. With checks that hold it adds I_LIMIT - current to correction,
clamps it to [-abs(v)·CL_FACTOR, 0], folds correction / I_LIMIT_SCALE, truncated toward zero, into v with the sign of
v and clamps v to [-127, 127]; when a check fails it raises ARITH_RANGE[m] and forces the unit safe. Nothing else
changes. -/
def Obligations.ClimFoldsCorrection : Prop :=
  ∀ (m : Motor) (s : State) (u : MotorUnit) (cur : Word) (k : Int),
    u = s.motor m → cur = (s.ports.motor m).measCurrent →
    k = max (-(|u.v| * (s.cfg.clFactor : Int))) (min 0 (u.correction + ((s.cfg.iLimit : Int) - (cur.toNat : Int)))) →
    decode (BitVec.ofNat 16 (0x8600 + 0x1000 * m.index)) = .ok (.motClim m) ∧
    (ClimChecks s.cfg u u.v cur →
      exec (.motClim m) s = .next (s.setMotor m { u with
        correction := k
        v := max (-127) (min 127 (u.v + u.v.sign * k.tdiv (s.cfg.iLimitScale : Int))) })) ∧
    (¬ ClimChecks s.cfg u u.v cur →
      exec (.motClim m) s = .next (s.setMotor m
        { u with arithRange := true, dutyA := 0, dutyB := 0, lastDirection := .zero }))

/-- R180: with CL_FACTOR at most I_LIMIT_SCALE the current limiter never grows a duty command and never turns its
sign. -/
def Obligations.ClimNeverGrowsOrReverses : Prop :=
  ∀ (m : Motor) (s t : State), s.cfg.clFactor ≤ s.cfg.iLimitScale → -127 ≤ (s.motor m).v → (s.motor m).v ≤ 127 →
    ClimChecks s.cfg (s.motor m) (s.motor m).v (s.ports.motor m).measCurrent → exec (.motClim m) s = .next t →
    |(t.motor m).v| ≤ |(s.motor m).v| ∧ 0 ≤ (t.motor m).v * (s.motor m).v

/-- R170 to R172: MOT.PLIM m, word 0x8700 + 0x1000·m, overwrites the oldest sample, trips when the truncated
100-sample average times the bus voltage exceeds 4·P_NOMINAL, and forces v to 0 on a trip and while the decay counter
is nonzero; otherwise v passes unchanged. Nothing else changes. -/
def Obligations.PlimTripsDecaysOrPasses : Prop :=
  ∀ (m : Motor) (s : State) (u : MotorUnit) (p : MotorPorts) (est : Nat),
    u = s.motor m → p = s.ports.motor m →
    est = ((u.ring.toList.map BitVec.toNat).sum - (u.ring.toList.getD u.ringIdx.val 0#16).toNat + p.measCurrent.toNat)
      / 100 * p.busVoltage.toNat →
    decode (BitVec.ofNat 16 (0x8700 + 0x1000 * m.index)) = .ok (.motPlim m) ∧
    exec (.motPlim m) s = .next (s.setMotor m { u with
      ring := u.ring.set u.ringIdx.val p.measCurrent u.ringIdx.isLt
      ringIdx := u.ringIdx + 1
      decayCounter := if 4 * s.cfg.pNominal < est then s.cfg.decayMax else u.decayCounter - 1
      v := if 4 * s.cfg.pNominal < est ∨ 0 < u.decayCounter then 0 else u.v })

/-- R179: after a tick whose power estimate exceeds 4·P_NOMINAL, the unit's duties are 0 for that tick and for at
least the next DECAY_MAX ticks, whatever is measured in them and whatever runs on other units in between. -/
def Obligations.PowerTripHoldsZeroForDecayWindow : Prop :=
  ∀ (m : Motor) (s t : State) (c : Issue) (calls : List Issue) (rest : List PortEvent),
    s.cfg.WellChosen → MotorInv s.cfg (s.motor m) →
    s.pending = .command c :: (calls.map .command ++ rest) → decode c.word = .ok (.motTick m) →
    4 * s.cfg.pNominal <
      (s.motor m).powerEstimate (c.ports.motor m).measCurrent (c.ports.motor m).busVoltage →
    (∀ d ∈ calls, ∃ i, decode d.word = .ok i ∧ (i = .motTick m ∨ operationUnit i ≠ some m)) →
    (calls.filter fun d => decide (d.word = encode (.motTick m))).length ≤ s.cfg.decayMax →
    Host.Core.run Sys2Proof.core (calls.length + 1) s = .next t →
    (t.motor m).dutyA = 0 ∧ (t.motor m).dutyB = 0

/-- R173, R174: MOT.ACT m, word 0x8800 + 0x1000·m, clamps v to [-127, 127], drives both duties to 0 on a dead tick and
otherwise one of them to its magnitude by its sign, keeps the commanded direction, and changes nothing else. -/
def Obligations.ActDrivesOneChannelAfterDeadTick : Prop :=
  ∀ (m : Motor) (s : State) (u : MotorUnit) (w : Int) (d : Direction),
    u = s.motor m → w = max (-127) (min 127 u.v) → d.toInt = w.sign →
    decode (BitVec.ofNat 16 (0x8800 + 0x1000 * m.index)) = .ok (.motAct m) ∧
    exec (.motAct m) s = .next (s.setMotor m
      (if d ≠ u.lastDirection ∧ (s.cfg.deadtimeFromZero = true ∨ (d ≠ .zero ∧ u.lastDirection ≠ .zero)) then
        { u with dutyA := 0, dutyB := 0, lastDirection := d }
       else
        { u with dutyA := if 0 < w then w.toNat else 0, dutyB := if w < 0 then (-w).toNat else 0,
                 lastDirection := d }))

/-- R175: a MOT.TICK (word 0x8200 + 0x1000·m) whose checks hold, those of the law stage it runs and those of the
current limiter on that law's value, completes without a fault and is its law stage, its current limiter, its power
limiter and its actuation, one after the other on the same port values. -/
def Obligations.TickIsItsFourStages : Prop :=
  ∀ (m : Motor) (s : State), TickChecks s.cfg (s.motor m) (s.ports.motor m) →
    decode (BitVec.ofNat 16 (0x8200 + 0x1000 * m.index)) = .ok (.motTick m) ∧
    ∃ u : MotorUnit, exec (.motTick m) s = .next (s.setMotor m u) ∧ u.arithRange = (s.motor m).arithRange ∧
      execAll [lawOperation m (s.motor m).law, .motClim m, .motPlim m, .motAct m] s = .next (s.setMotor m u)

/-! ### System operations -/

/-- R200: SYS.NOP, word 0x2000, changes nothing; 0x2001 to 0x20FF are reserved, not no-ops. -/
def Obligations.NopChangesNothing : Prop :=
  decode 0x2000#16 = .ok .sysNop ∧
  (∀ imm : Byte, 1 ≤ imm.toNat → isReserved (BitVec.ofNat 16 (0x2000 + imm.toNat)) = true) ∧
  ∀ s : State, exec .sysNop s = .next s

/-- R26, R34, R201: SYS.STATUS, word 0x2100, answers the status word, each flag at its bit and the pstate code in bits
10 to 8, and changes nothing else. -/
def Obligations.StatusAnswersEveryFlag : Prop :=
  ∀ (s : State) (code : Nat),
    (s.pstate, code) ∈ [(PState.header1, 0), (.header2, 1), (.header3, 2), (.header4, 3), (.motorData, 4), (.ledData, 5)] →
    decode 0x2100#16 = .ok .sysStatus ∧
    exec .sysStatus s = .next { s with
      rsp := BitVec.ofNat 16 (s.illegalCmd.toNat + 2 * s.rxOverflow.toNat + 4 * s.motor0.arithRange.toNat +
        8 * s.motor1.arithRange.toNat + 16 * s.motor2.arithRange.toNat + 32 * s.stagedValid.toNat +
        64 * s.txBusy.toNat + 128 * s.cmdDisabled.toNat + 256 * code) }

/-! ### The whole machine -/

/-- R224: writing unit m changes that unit and no other element of the state. -/
def Obligations.UnitWriteTouchesOneUnit : Prop :=
  ∀ (s : State) (m : Motor) (u : MotorUnit),
    (∀ m', (s.setMotor m u).motor m' = if m' = m then u else s.motor m') ∧
    { s.setMotor m u with motor0 := s.motor0, motor1 := s.motor1, motor2 := s.motor2 } = s

/-- R2, R224: a motor-loop operation changes its own unit only, and no other operation changes a motor-loop unit. -/
def Obligations.OperationsKeepToTheirUnit : Prop :=
  ∀ (i : Instr) (s t : State), exec i s = .next t →
    (∀ m, operationUnit i = some m → t = s.setMotor m (t.motor m)) ∧
    (operationUnit i = none → ∀ m, t.motor m = s.motor m)

/-- R2, R224: what a motor-loop operation makes of its unit depends on nothing but that unit, its input ports and the
parameters. -/
def Obligations.UnitResultIndependentOfRest : Prop :=
  ∀ (i : Instr) (m : Motor) (s s' t t' : State), operationUnit i = some m → s.cfg = s'.cfg →
    s.motor m = s'.motor m → s.ports.motor m = s'.ports.motor m →
    exec i s = .next t → exec i s' = .next t' → t.motor m = t'.motor m

/-- R33, R210: a sticky fault bit that is set stays set until RESET. -/
def Obligations.StickyBitsStayUntilReset : Prop :=
  ∀ (s t : State) (k : FaultKind), step s = .next t → s.pending.head? ≠ some .reset →
    s.faultBit k = true → t.faultBit k = true

/-- R22, R24 to R27, R30 to R33, R37, R52: each register of the CRC and protocol units is written only by the
operations its rule names; no operation writes the parameters, CRC_TABLE or ILLEGAL_CMD; only PROT.TAKE emits on
cmd_out. -/
def Obligations.BlockRegistersHaveNamedWriters : Prop :=
  ∀ (i : Instr) (s t : State), exec i s = .next t →
    t.cfg = s.cfg ∧ t.crcTable = s.crcTable ∧ t.illegalCmd = s.illegalCmd ∧
    (i ∉ [Instr.crcRead, .protDecode, .protTake, .protEncode, .sysStatus] → t.rsp = s.rsp) ∧
    (i ∉ [Instr.crcInit, .protEncode] → (∀ b, i ≠ .crcUpdate b) → t.crc = s.crc) ∧
    (i ≠ .protDecode → t.pstate = s.pstate ∧ t.work = s.work ∧ t.staged = s.staged) ∧
    (i ≠ .protDecode → (∀ b, i ≠ .protRxpush b) → t.rxFifo = s.rxFifo) ∧
    (i ∉ [Instr.protDecode, .protTake] → t.stagedValid = s.stagedValid) ∧
    ((∀ g, i ≠ .protSetgate g) → t.cmdDisabled = s.cmdDisabled) ∧
    (i ≠ .protEncode → t.txBuf = s.txBuf) ∧
    (i ∉ [Instr.protEncode, .protTxdone] → t.txBusy = s.txBusy) ∧
    ((∀ b, i ≠ .protRxpush b) → t.rxOverflow = s.rxOverflow) ∧
    (i ≠ .protTake → t.cmdOut = s.cmdOut)

/-- R38 to R48: each register of a motor-loop unit is written only by the operations its rule names; the duties and
last_direction also by the forced-safe outcome of an ARITH_RANGE fault (R212). -/
def Obligations.UnitRegistersHaveNamedWriters : Prop :=
  ∀ (i : Instr) (m : Motor) (s t : State) (u u' : MotorUnit), exec i s = .next t → u = s.motor m → u' = t.motor m →
    ((∀ sp, i ≠ .motSetsp m sp) → u'.setpoint = u.setpoint) ∧
    ((∀ law, i ≠ .motSetlaw m law) → u'.law = u.law) ∧
    (i ∉ [Instr.motPd m, .motPid m, .motTick m] → u'.lastError = u.lastError ∧ u'.acc = u.acc) ∧
    (i ∉ [Instr.motPd m, .motPid m, .motTick m] → u'.integralError = u.integralError) ∧
    (i ∉ [Instr.motClim m, .motTick m] → u'.correction = u.correction) ∧
    (i ∉ [Instr.motPlim m, .motTick m] →
      u'.ring = u.ring ∧ u'.ringIdx = u.ringIdx ∧ u'.decayCounter = u.decayCounter) ∧
    (i ∉ [Instr.motDirect m, .motPd m, .motPid m, .motClim m, .motPlim m, .motTick m] → u'.v = u.v) ∧
    (i ∉ [Instr.motAct m, .motTick m] →
      (u'.dutyA = u.dutyA ∧ u'.dutyB = u.dutyB ∧ u'.lastDirection = u.lastDirection ∧
        u'.arithRange = u.arithRange) ∨ (i ∈ [Instr.motPd m, .motPid m, .motClim m] ∧ u' = u.forceSafe))

/-- R27, R29, R42 to R48, R100, R141: every step keeps every state element in the range its rule gives it, rx_fifo
within its capacity, a staged frame well-formed, and the send buffer a whole telemetry frame. -/
def Obligations.StepKeepsInvariant : Prop :=
  ∀ s t : State, s.Inv → step s = .next t → t.Inv

/-- R231: the invariant holds after power-on. -/
def Obligations.PowerOnStateMeetsInvariant : Prop :=
  State.reset.Inv

/-- R15, R212: under well-chosen gains no step raises ARITH_RANGE. -/
def Obligations.WellChosenGainsNeverFault : Prop :=
  ∀ (s t : State) (m : Motor), s.cfg.WellChosen → s.Inv → step s = .next t →
    (t.motor m).arithRange = true → (s.motor m).arithRange = true

/-- R178: no step takes a unit whose direction is one sign to a nonzero duty of the other channel. -/
def Obligations.ReversalCostsDeadTick : Prop :=
  ∀ (s t : State) (m : Motor), s.Inv → step s = .next t →
    ((s.motor m).lastDirection = .positive → (t.motor m).dutyB = 0) ∧
    ((s.motor m).lastDirection = .negative → (t.motor m).dutyA = 0)

/-- R234: the first MOT.TICK after power-on drives duty (0, 0) on every unit, whatever is measured. -/
def Obligations.FirstTickAfterPowerOnIsSafe : Prop :=
  ∀ (m : Motor) (p : InPorts), ∃ t, exec (.motTick m) { State.reset with ports := p } = .next t ∧
    (t.motor m).dutyA = 0 ∧ (t.motor m).dutyB = 0 ∧ (t.motor m).arithRange = false
end

