-- ==== Sys2Proof/Laws/Crc.lean ====
section
/-! SUPPORT. The CRC fold over appended bytes, and the one entry every generated table shares. -/

namespace Sys2Proof.Machine

variable (table : Vector Word 256) (s : Word)

@[simp] theorem crcSeq_nil : crcSeq table s [] = s := rfl

@[simp] theorem crcSeq_cons (b : Byte) (bytes : List Byte) :
    crcSeq table s (b :: bytes) = crcSeq table (crcStep table s b) bytes := rfl

theorem crcSeq_append (xs ys : List Byte) :
    crcSeq table s (xs ++ ys) = crcSeq table (crcSeq table s xs) ys := List.foldl_append

/-- Entry 0 of every generated table is 0 (R113). -/
theorem generatedTable_zero (poly : Word) : (generatedTable poly)[0] = 0x0000#16 := by
  simp [generatedTable, tableEntry, Nat.repeat, tableShift]

/-- Over a generated table, a byte equal to the high byte of the register shifts it out (R113, R116). -/
theorem crcStep_highByte (poly : Word) : crcStep (generatedTable poly) s (s.extractLsb' 8 8) = s <<< 8 := by
  unfold crcStep
  have h : (generatedTable poly)[(s.extractLsb' 8 8 ^^^ s.extractLsb' 8 8).toNat]'(by omega) = 0#16 := by
    simp only [BitVec.xor_self]
    exact generatedTable_zero poly
  rw [h]; simp

end Sys2Proof.Machine
end

