-- ==== Sys2Proof/Laws/Decode.lean ====
section
/-! SUPPORT. The three fields of a command word as bits and as numbers (R80), and a word from its fields. -/

namespace Sys2Proof

theorem unitNumber_eq (w : Word) : unitNumber w = (unitField w).toNat := by
  have := w.isLt
  simp [unitNumber, unitField, Nat.shiftRight_eq_div_pow]; omega

theorem opNumber_eq (w : Word) : opNumber w = (opField w).toNat := by
  simp [opNumber, opField, Nat.shiftRight_eq_div_pow]

theorem immNumber_eq (w : Word) : immNumber w = (immField w).toNat := by
  simp [immNumber, immField]

theorem commandWord_toNat (u o : BitVec 4) (i : Byte) :
    (commandWord u o i).toNat = u.toNat * 4096 + o.toNat * 256 + i.toNat := by
  simp only [commandWord, BitVec.toNat_append]
  rw [← Nat.shiftLeft_add_eq_or_of_lt o.isLt, ← Nat.shiftLeft_add_eq_or_of_lt i.isLt]
  simp only [Nat.shiftLeft_eq]
  omega

theorem unitField_commandWord (u o : BitVec 4) (i : Byte) : unitField (commandWord u o i) = u := by
  apply BitVec.eq_of_toNat_eq
  simp only [unitField, BitVec.extractLsb'_toNat, commandWord_toNat, Nat.shiftRight_eq_div_pow]
  omega

theorem opField_commandWord (u o : BitVec 4) (i : Byte) : opField (commandWord u o i) = o := by
  apply BitVec.eq_of_toNat_eq
  simp only [opField, BitVec.extractLsb'_toNat, commandWord_toNat, Nat.shiftRight_eq_div_pow]
  omega

theorem immField_commandWord (u o : BitVec 4) (i : Byte) : immField (commandWord u o i) = i := by
  apply BitVec.eq_of_toNat_eq
  simp only [immField, BitVec.extractLsb'_toNat, commandWord_toNat, Nat.shiftRight_eq_div_pow]
  omega

/-- A word is its three fields (R80). -/
theorem commandWord_fields (w : Word) : commandWord (unitField w) (opField w) (immField w) = w := by
  apply BitVec.eq_of_toNat_eq
  have := w.isLt
  rw [commandWord_toNat]
  simp only [unitField, opField, immField, BitVec.extractLsb'_toNat, Nat.shiftRight_eq_div_pow]
  omega

end Sys2Proof
end

