-- ==== Sys2Proof/Laws/Operands.lean ====
section
/-! SUPPORT. The helper functions of R12 in the library's terms, and their bounds. -/

namespace Sys2Proof.Machine

theorem clamp_eq_max_min {lo hi : Int} (h : lo ≤ hi) (x : Int) : clamp x lo hi = max lo (min hi x) := by
  unfold clamp; split <;> [skip; split] <;> omega

theorem le_clamp {lo hi : Int} (h : lo ≤ hi) (x : Int) : lo ≤ clamp x lo hi := by
  rw [clamp_eq_max_min h]; omega

theorem clamp_le {lo hi : Int} (h : lo ≤ hi) (x : Int) : clamp x lo hi ≤ hi := by
  rw [clamp_eq_max_min h]; omega

theorem clamp_of_mem {x lo hi : Int} (h : lo ≤ x) (h' : x ≤ hi) : clamp x lo hi = x := by
  unfold clamp; split <;> [omega; split] <;> omega

theorem asr_six (x : Int) : asr x 6 = x / 64 := by
  unfold asr; rw [Int.fdiv_eq_ediv_of_nonneg _ (by decide)]; rfl

theorem asr_six_range {x : Int} (h : -8128 ≤ x) (h' : x ≤ 8128) : -127 ≤ asr x 6 ∧ asr x 6 ≤ 127 := by
  rw [asr_six]; omega

theorem sgn_eq_sign (x : Int) : sgn x = x.sign := by
  unfold sgn
  rcases lt_trichotomy x 0 with h | h | h
  · rw [Int.sign_eq_neg_one_of_neg h, if_neg (by omega), if_pos h]
  · subst h; rfl
  · rw [Int.sign_eq_one_of_pos h, if_pos h]

theorem absInt_eq_abs (x : Int) : absInt x = |x| := by
  rw [absInt, sgn_eq_sign, Int.mul_sign_self]; exact (Int.abs_eq_natAbs x).symm

theorem absInt_nonneg (x : Int) : 0 ≤ absInt x := by rw [absInt_eq_abs]; exact abs_nonneg x

theorem neg_absInt_mul_nonpos (x : Int) (k : Nat) : -absInt x * (k : Int) ≤ 0 := by
  have := mul_nonneg (absInt_nonneg x) (Int.natCast_nonneg k)
  rw [neg_mul]; omega

@[simp] theorem sgn_zero : sgn 0 = 0 := rfl

@[simp] theorem absInt_zero : absInt 0 = 0 := rfl

theorem ofSgn_toInt (x : Int) : (Direction.ofSgn x).toInt = x.sign := by
  rw [← sgn_eq_sign]; unfold Direction.ofSgn sgn; split <;> [rfl; split] <;> rfl

theorem Direction.toInt_injective {d e : Direction} (h : d.toInt = e.toInt) : d = e := by
  cases d <;> cases e <;> first | rfl | exact absurd h (by decide)

theorem ofSgn_eq_of_toInt {d : Direction} {x : Int} (h : d.toInt = x.sign) : Direction.ofSgn x = d :=
  Direction.toInt_injective ((ofSgn_toInt x).trans h.symm)

theorem ofSgn_eq_positive {x : Int} : Direction.ofSgn x = .positive ↔ 0 < x := by
  unfold Direction.ofSgn; split <;> [simp_all; split] <;> simp_all

theorem ofSgn_eq_negative {x : Int} : Direction.ofSgn x = .negative ↔ x < 0 := by
  unfold Direction.ofSgn; split <;> [skip; split] <;> simp_all; omega

end Sys2Proof.Machine
end

