-- ==== Sys2Proof/Laws/State.lean ====
section
/-! SUPPORT. What each named update of the state leaves in each field: one lemma per field per update, true by
computation, so that no proof unfolds a record update. -/

namespace Sys2Proof.Machine

variable (s : State)

/-! ### setMotor -/

@[simp] theorem setMotor_motor (m m' : Motor) (u : MotorUnit) :
    (s.setMotor m u).motor m' = if m' = m then u else s.motor m' := by
  cases m <;> cases m' <;> rfl

theorem setMotor_motor_same (m : Motor) (u : MotorUnit) : (s.setMotor m u).motor m = u := by simp

@[simp] theorem setMotor_self (m : Motor) : s.setMotor m (s.motor m) = s := by cases m <;> rfl

@[simp] theorem setMotor_setMotor (m : Motor) (u u' : MotorUnit) :
    (s.setMotor m u).setMotor m u' = s.setMotor m u' := by cases m <;> rfl

@[simp] theorem setMotor_cfg (m : Motor) (u : MotorUnit) : (s.setMotor m u).cfg = s.cfg := rfl
@[simp] theorem setMotor_crcTable (m : Motor) (u : MotorUnit) : (s.setMotor m u).crcTable = s.crcTable := rfl
@[simp] theorem setMotor_crc (m : Motor) (u : MotorUnit) : (s.setMotor m u).crc = s.crc := rfl
@[simp] theorem setMotor_pstate (m : Motor) (u : MotorUnit) : (s.setMotor m u).pstate = s.pstate := rfl
@[simp] theorem setMotor_rxFifo (m : Motor) (u : MotorUnit) : (s.setMotor m u).rxFifo = s.rxFifo := rfl
@[simp] theorem setMotor_work (m : Motor) (u : MotorUnit) : (s.setMotor m u).work = s.work := rfl
@[simp] theorem setMotor_staged (m : Motor) (u : MotorUnit) : (s.setMotor m u).staged = s.staged := rfl
@[simp] theorem setMotor_stagedValid (m : Motor) (u : MotorUnit) : (s.setMotor m u).stagedValid = s.stagedValid := rfl
@[simp] theorem setMotor_cmdDisabled (m : Motor) (u : MotorUnit) : (s.setMotor m u).cmdDisabled = s.cmdDisabled := rfl
@[simp] theorem setMotor_txBuf (m : Motor) (u : MotorUnit) : (s.setMotor m u).txBuf = s.txBuf := rfl
@[simp] theorem setMotor_txBusy (m : Motor) (u : MotorUnit) : (s.setMotor m u).txBusy = s.txBusy := rfl
@[simp] theorem setMotor_rsp (m : Motor) (u : MotorUnit) : (s.setMotor m u).rsp = s.rsp := rfl
@[simp] theorem setMotor_illegalCmd (m : Motor) (u : MotorUnit) : (s.setMotor m u).illegalCmd = s.illegalCmd := rfl
@[simp] theorem setMotor_rxOverflow (m : Motor) (u : MotorUnit) : (s.setMotor m u).rxOverflow = s.rxOverflow := rfl
@[simp] theorem setMotor_cmdOut (m : Motor) (u : MotorUnit) : (s.setMotor m u).cmdOut = s.cmdOut := rfl
@[simp] theorem setMotor_ports (m : Motor) (u : MotorUnit) : (s.setMotor m u).ports = s.ports := rfl
@[simp] theorem setMotor_pending (m : Motor) (u : MotorUnit) : (s.setMotor m u).pending = s.pending := rfl

/-! ### respond -/

@[simp] theorem respond_rsp (w : Word) : (s.respond w).rsp = w := rfl
@[simp] theorem respond_cfg (w : Word) : (s.respond w).cfg = s.cfg := rfl
@[simp] theorem respond_crcTable (w : Word) : (s.respond w).crcTable = s.crcTable := rfl
@[simp] theorem respond_crc (w : Word) : (s.respond w).crc = s.crc := rfl
@[simp] theorem respond_pstate (w : Word) : (s.respond w).pstate = s.pstate := rfl
@[simp] theorem respond_rxFifo (w : Word) : (s.respond w).rxFifo = s.rxFifo := rfl
@[simp] theorem respond_work (w : Word) : (s.respond w).work = s.work := rfl
@[simp] theorem respond_staged (w : Word) : (s.respond w).staged = s.staged := rfl
@[simp] theorem respond_stagedValid (w : Word) : (s.respond w).stagedValid = s.stagedValid := rfl
@[simp] theorem respond_cmdDisabled (w : Word) : (s.respond w).cmdDisabled = s.cmdDisabled := rfl
@[simp] theorem respond_txBuf (w : Word) : (s.respond w).txBuf = s.txBuf := rfl
@[simp] theorem respond_txBusy (w : Word) : (s.respond w).txBusy = s.txBusy := rfl
@[simp] theorem respond_illegalCmd (w : Word) : (s.respond w).illegalCmd = s.illegalCmd := rfl
@[simp] theorem respond_rxOverflow (w : Word) : (s.respond w).rxOverflow = s.rxOverflow := rfl
@[simp] theorem respond_cmdOut (w : Word) : (s.respond w).cmdOut = s.cmdOut := rfl
@[simp] theorem respond_ports (w : Word) : (s.respond w).ports = s.ports := rfl
@[simp] theorem respond_pending (w : Word) : (s.respond w).pending = s.pending := rfl
@[simp] theorem respond_motor (w : Word) (m : Motor) : (s.respond w).motor m = s.motor m := by cases m <;> rfl

/-! ### pushRx -/

@[simp] theorem pushRx_rxFifo (b : Byte) : (s.pushRx b).rxFifo = s.rxFifo ++ [b] := rfl
@[simp] theorem pushRx_cfg (b : Byte) : (s.pushRx b).cfg = s.cfg := rfl
@[simp] theorem pushRx_crcTable (b : Byte) : (s.pushRx b).crcTable = s.crcTable := rfl
@[simp] theorem pushRx_crc (b : Byte) : (s.pushRx b).crc = s.crc := rfl
@[simp] theorem pushRx_pstate (b : Byte) : (s.pushRx b).pstate = s.pstate := rfl
@[simp] theorem pushRx_work (b : Byte) : (s.pushRx b).work = s.work := rfl
@[simp] theorem pushRx_staged (b : Byte) : (s.pushRx b).staged = s.staged := rfl
@[simp] theorem pushRx_stagedValid (b : Byte) : (s.pushRx b).stagedValid = s.stagedValid := rfl
@[simp] theorem pushRx_cmdDisabled (b : Byte) : (s.pushRx b).cmdDisabled = s.cmdDisabled := rfl
@[simp] theorem pushRx_txBuf (b : Byte) : (s.pushRx b).txBuf = s.txBuf := rfl
@[simp] theorem pushRx_txBusy (b : Byte) : (s.pushRx b).txBusy = s.txBusy := rfl
@[simp] theorem pushRx_rsp (b : Byte) : (s.pushRx b).rsp = s.rsp := rfl
@[simp] theorem pushRx_illegalCmd (b : Byte) : (s.pushRx b).illegalCmd = s.illegalCmd := rfl
@[simp] theorem pushRx_rxOverflow (b : Byte) : (s.pushRx b).rxOverflow = s.rxOverflow := rfl
@[simp] theorem pushRx_cmdOut (b : Byte) : (s.pushRx b).cmdOut = s.cmdOut := rfl
@[simp] theorem pushRx_ports (b : Byte) : (s.pushRx b).ports = s.ports := rfl
@[simp] theorem pushRx_pending (b : Byte) : (s.pushRx b).pending = s.pending := rfl
@[simp] theorem pushRx_motor (b : Byte) (m : Motor) : (s.pushRx b).motor m = s.motor m := by cases m <;> rfl

/-! ### emit -/

@[simp] theorem emit_cmdOut (e : CmdOutEvent) : (s.emit e).cmdOut = s.cmdOut ++ [e] := rfl
@[simp] theorem emit_cfg (e : CmdOutEvent) : (s.emit e).cfg = s.cfg := rfl
@[simp] theorem emit_crcTable (e : CmdOutEvent) : (s.emit e).crcTable = s.crcTable := rfl
@[simp] theorem emit_crc (e : CmdOutEvent) : (s.emit e).crc = s.crc := rfl
@[simp] theorem emit_pstate (e : CmdOutEvent) : (s.emit e).pstate = s.pstate := rfl
@[simp] theorem emit_rxFifo (e : CmdOutEvent) : (s.emit e).rxFifo = s.rxFifo := rfl
@[simp] theorem emit_work (e : CmdOutEvent) : (s.emit e).work = s.work := rfl
@[simp] theorem emit_staged (e : CmdOutEvent) : (s.emit e).staged = s.staged := rfl
@[simp] theorem emit_stagedValid (e : CmdOutEvent) : (s.emit e).stagedValid = s.stagedValid := rfl
@[simp] theorem emit_cmdDisabled (e : CmdOutEvent) : (s.emit e).cmdDisabled = s.cmdDisabled := rfl
@[simp] theorem emit_txBuf (e : CmdOutEvent) : (s.emit e).txBuf = s.txBuf := rfl
@[simp] theorem emit_txBusy (e : CmdOutEvent) : (s.emit e).txBusy = s.txBusy := rfl
@[simp] theorem emit_rsp (e : CmdOutEvent) : (s.emit e).rsp = s.rsp := rfl
@[simp] theorem emit_illegalCmd (e : CmdOutEvent) : (s.emit e).illegalCmd = s.illegalCmd := rfl
@[simp] theorem emit_rxOverflow (e : CmdOutEvent) : (s.emit e).rxOverflow = s.rxOverflow := rfl
@[simp] theorem emit_ports (e : CmdOutEvent) : (s.emit e).ports = s.ports := rfl
@[simp] theorem emit_pending (e : CmdOutEvent) : (s.emit e).pending = s.pending := rfl
@[simp] theorem emit_motor (e : CmdOutEvent) (m : Motor) : (s.emit e).motor m = s.motor m := by cases m <;> rfl

/-! ### raiseFault -/

@[simp] theorem raiseFault_illegalCmd : s.raiseFault .illegalCmd = { s with illegalCmd := true } := rfl

@[simp] theorem raiseFault_rxOverflow : s.raiseFault .rxOverflow = { s with rxOverflow := true } := rfl

@[simp] theorem raiseFault_arithRange (m : Motor) :
    s.raiseFault (.arithRange m) = s.setMotor m (s.motor m).forceSafe := rfl


/-! ### forceSafe -/

@[simp] theorem forceSafe_setpoint (u : MotorUnit) : u.forceSafe.setpoint = u.setpoint := rfl
@[simp] theorem forceSafe_law (u : MotorUnit) : u.forceSafe.law = u.law := rfl
@[simp] theorem forceSafe_lastError (u : MotorUnit) : u.forceSafe.lastError = u.lastError := rfl
@[simp] theorem forceSafe_integralError (u : MotorUnit) : u.forceSafe.integralError = u.integralError := rfl
@[simp] theorem forceSafe_acc (u : MotorUnit) : u.forceSafe.acc = u.acc := rfl
@[simp] theorem forceSafe_correction (u : MotorUnit) : u.forceSafe.correction = u.correction := rfl
@[simp] theorem forceSafe_ring (u : MotorUnit) : u.forceSafe.ring = u.ring := rfl
@[simp] theorem forceSafe_ringIdx (u : MotorUnit) : u.forceSafe.ringIdx = u.ringIdx := rfl
@[simp] theorem forceSafe_decayCounter (u : MotorUnit) : u.forceSafe.decayCounter = u.decayCounter := rfl
@[simp] theorem forceSafe_v (u : MotorUnit) : u.forceSafe.v = u.v := rfl
@[simp] theorem forceSafe_dutyA (u : MotorUnit) : u.forceSafe.dutyA = 0 := rfl
@[simp] theorem forceSafe_dutyB (u : MotorUnit) : u.forceSafe.dutyB = 0 := rfl
@[simp] theorem forceSafe_lastDirection (u : MotorUnit) : u.forceSafe.lastDirection = .zero := rfl
@[simp] theorem forceSafe_arithRange (u : MotorUnit) : u.forceSafe.arithRange = true := rfl

/-! ### stage and afterDecode -/

@[simp] theorem stage_staged (f : CommandFrame) : (s.stage f).staged = f := rfl
@[simp] theorem stage_stagedValid (f : CommandFrame) : (s.stage f).stagedValid = true := rfl
@[simp] theorem stage_cfg (f : CommandFrame) : (s.stage f).cfg = s.cfg := rfl
@[simp] theorem stage_crcTable (f : CommandFrame) : (s.stage f).crcTable = s.crcTable := rfl
@[simp] theorem stage_crc (f : CommandFrame) : (s.stage f).crc = s.crc := rfl
@[simp] theorem stage_pstate (f : CommandFrame) : (s.stage f).pstate = s.pstate := rfl
@[simp] theorem stage_rxFifo (f : CommandFrame) : (s.stage f).rxFifo = s.rxFifo := rfl
@[simp] theorem stage_work (f : CommandFrame) : (s.stage f).work = s.work := rfl
@[simp] theorem stage_cmdDisabled (f : CommandFrame) : (s.stage f).cmdDisabled = s.cmdDisabled := rfl
@[simp] theorem stage_txBuf (f : CommandFrame) : (s.stage f).txBuf = s.txBuf := rfl
@[simp] theorem stage_txBusy (f : CommandFrame) : (s.stage f).txBusy = s.txBusy := rfl
@[simp] theorem stage_rsp (f : CommandFrame) : (s.stage f).rsp = s.rsp := rfl
@[simp] theorem stage_illegalCmd (f : CommandFrame) : (s.stage f).illegalCmd = s.illegalCmd := rfl
@[simp] theorem stage_rxOverflow (f : CommandFrame) : (s.stage f).rxOverflow = s.rxOverflow := rfl
@[simp] theorem stage_cmdOut (f : CommandFrame) : (s.stage f).cmdOut = s.cmdOut := rfl
@[simp] theorem stage_ports (f : CommandFrame) : (s.stage f).ports = s.ports := rfl
@[simp] theorem stage_pending (f : CommandFrame) : (s.stage f).pending = s.pending := rfl
@[simp] theorem afterDecode_pstate (d : DecodeRun) : (s.afterDecode d).pstate = d.pstate := by
  unfold State.afterDecode State.stageFrom; split <;> rfl
@[simp] theorem afterDecode_rxFifo (d : DecodeRun) : (s.afterDecode d).rxFifo = d.rx := by
  unfold State.afterDecode State.stageFrom; split <;> rfl
@[simp] theorem afterDecode_work (d : DecodeRun) : (s.afterDecode d).work = d.work := by
  unfold State.afterDecode State.stageFrom; split <;> rfl
@[simp] theorem afterDecode_rsp (d : DecodeRun) : (s.afterDecode d).rsp = d.response := rfl
@[simp] theorem afterDecode_staged (d : DecodeRun) : (s.afterDecode d).staged = d.frame.getD s.staged := by
  unfold State.afterDecode State.stageFrom; split <;> simp_all
@[simp] theorem afterDecode_stagedValid (d : DecodeRun) :
    (s.afterDecode d).stagedValid = (d.frame.isSome || s.stagedValid) := by
  unfold State.afterDecode State.stageFrom; split <;> simp_all
@[simp] theorem afterDecode_motor (d : DecodeRun) (m : Motor) : (s.afterDecode d).motor m = s.motor m := by
  unfold State.afterDecode State.stageFrom; split <;> cases m <;> rfl
@[simp] theorem afterDecode_cfg (d : DecodeRun) : (s.afterDecode d).cfg = s.cfg := by
  unfold State.afterDecode State.stageFrom; split <;> rfl
@[simp] theorem afterDecode_crcTable (d : DecodeRun) : (s.afterDecode d).crcTable = s.crcTable := by
  unfold State.afterDecode State.stageFrom; split <;> rfl
@[simp] theorem afterDecode_crc (d : DecodeRun) : (s.afterDecode d).crc = s.crc := by
  unfold State.afterDecode State.stageFrom; split <;> rfl
@[simp] theorem afterDecode_cmdDisabled (d : DecodeRun) : (s.afterDecode d).cmdDisabled = s.cmdDisabled := by
  unfold State.afterDecode State.stageFrom; split <;> rfl
@[simp] theorem afterDecode_txBuf (d : DecodeRun) : (s.afterDecode d).txBuf = s.txBuf := by
  unfold State.afterDecode State.stageFrom; split <;> rfl
@[simp] theorem afterDecode_txBusy (d : DecodeRun) : (s.afterDecode d).txBusy = s.txBusy := by
  unfold State.afterDecode State.stageFrom; split <;> rfl
@[simp] theorem afterDecode_illegalCmd (d : DecodeRun) : (s.afterDecode d).illegalCmd = s.illegalCmd := by
  unfold State.afterDecode State.stageFrom; split <;> rfl
@[simp] theorem afterDecode_rxOverflow (d : DecodeRun) : (s.afterDecode d).rxOverflow = s.rxOverflow := by
  unfold State.afterDecode State.stageFrom; split <;> rfl
@[simp] theorem afterDecode_cmdOut (d : DecodeRun) : (s.afterDecode d).cmdOut = s.cmdOut := by
  unfold State.afterDecode State.stageFrom; split <;> rfl
@[simp] theorem afterDecode_ports (d : DecodeRun) : (s.afterDecode d).ports = s.ports := by
  unfold State.afterDecode State.stageFrom; split <;> rfl
@[simp] theorem afterDecode_pending (d : DecodeRun) : (s.afterDecode d).pending = s.pending := by
  unfold State.afterDecode State.stageFrom; split <;> rfl

/-! ### buildFrame -/

@[simp] theorem buildFrame_crc : s.buildFrame.crc = frameCrc s.cfg s.crcTable s.ports.tlmIn := by
  simp only [State.buildFrame]
@[simp] theorem buildFrame_txBuf : s.buildFrame.txBuf = telemetryFrame s.cfg s.crcTable s.ports.tlmIn := by
  simp only [State.buildFrame]
@[simp] theorem buildFrame_txBusy : s.buildFrame.txBusy = true := rfl
@[simp] theorem buildFrame_rsp : s.buildFrame.rsp = BitVec.ofNat 16 (frameLength s.cfg) := by
  simp only [State.buildFrame]
@[simp] theorem buildFrame_cfg : s.buildFrame.cfg = s.cfg := rfl
@[simp] theorem buildFrame_crcTable : s.buildFrame.crcTable = s.crcTable := rfl
@[simp] theorem buildFrame_pstate : s.buildFrame.pstate = s.pstate := rfl
@[simp] theorem buildFrame_rxFifo : s.buildFrame.rxFifo = s.rxFifo := rfl
@[simp] theorem buildFrame_work : s.buildFrame.work = s.work := rfl
@[simp] theorem buildFrame_staged : s.buildFrame.staged = s.staged := rfl
@[simp] theorem buildFrame_stagedValid : s.buildFrame.stagedValid = s.stagedValid := rfl
@[simp] theorem buildFrame_cmdDisabled : s.buildFrame.cmdDisabled = s.cmdDisabled := rfl
@[simp] theorem buildFrame_illegalCmd : s.buildFrame.illegalCmd = s.illegalCmd := rfl
@[simp] theorem buildFrame_rxOverflow : s.buildFrame.rxOverflow = s.rxOverflow := rfl
@[simp] theorem buildFrame_cmdOut : s.buildFrame.cmdOut = s.cmdOut := rfl
@[simp] theorem buildFrame_ports : s.buildFrame.ports = s.ports := rfl
@[simp] theorem buildFrame_pending : s.buildFrame.pending = s.pending := rfl
@[simp] theorem buildFrame_motor (m : Motor) : s.buildFrame.motor m = s.motor m := by
  cases m <;> simp only [State.motor, State.buildFrame]

/-! ### resetEvent -/

@[simp] theorem resetEvent_cfg : s.resetEvent.cfg = s.cfg := rfl
@[simp] theorem resetEvent_crcTable : s.resetEvent.crcTable = s.crcTable := rfl
@[simp] theorem resetEvent_cmdOut : s.resetEvent.cmdOut = s.cmdOut := rfl
@[simp] theorem resetEvent_ports : s.resetEvent.ports = s.ports := rfl
@[simp] theorem resetEvent_pending : s.resetEvent.pending = s.pending := rfl
@[simp] theorem resetEvent_crc : s.resetEvent.crc = s.cfg.crcInit := rfl
@[simp] theorem resetEvent_pstate : s.resetEvent.pstate = .header1 := rfl
@[simp] theorem resetEvent_rxFifo : s.resetEvent.rxFifo = [] := rfl
@[simp] theorem resetEvent_work : s.resetEvent.work = WorkFrame.reset := rfl
@[simp] theorem resetEvent_staged : s.resetEvent.staged = CommandFrame.reset := rfl
@[simp] theorem resetEvent_stagedValid : s.resetEvent.stagedValid = false := rfl
@[simp] theorem resetEvent_cmdDisabled : s.resetEvent.cmdDisabled = false := rfl
@[simp] theorem resetEvent_txBuf : s.resetEvent.txBuf = [] := rfl
@[simp] theorem resetEvent_txBusy : s.resetEvent.txBusy = false := rfl
@[simp] theorem resetEvent_rsp : s.resetEvent.rsp = 0x0000#16 := rfl
@[simp] theorem resetEvent_illegalCmd : s.resetEvent.illegalCmd = false := rfl
@[simp] theorem resetEvent_rxOverflow : s.resetEvent.rxOverflow = false := rfl
@[simp] theorem resetEvent_motor (m : Motor) : s.resetEvent.motor m = MotorUnit.reset := by
  cases m <;> simp only [State.motor, State.resetEvent, State.resetWith]

/-! ### runMotor -/

/-- Everything a motor-loop operation with checks can do: write unit m as `f` says, or raise ARITH_RANGE[m]. -/
theorem runMotor_cases (m : Motor) (f : MotorUnit → Option MotorUnit) :
    (∃ u, f (s.motor m) = some u ∧ s.runMotor m f = s.setMotor m u) ∨
      (f (s.motor m) = none ∧ s.runMotor m f = s.setMotor m (s.motor m).forceSafe) := by
  unfold State.runMotor
  cases h : f (s.motor m) with
  | some u => exact .inl ⟨u, rfl, rfl⟩
  | none => exact .inr ⟨rfl, rfl⟩

/-- A motor-loop operation writes unit m only. -/
theorem runMotor_eq_setMotor (m : Motor) (f : MotorUnit → Option MotorUnit) :
    s.runMotor m f = s.setMotor m ((f (s.motor m)).getD (s.motor m).forceSafe) := by
  rcases runMotor_cases s m f with ⟨u, h, h'⟩ | ⟨h, h'⟩ <;> simp [h, h']

theorem runMotor_of_some {m : Motor} {f : MotorUnit → Option MotorUnit} {u : MotorUnit}
    (h : f (s.motor m) = some u) : s.runMotor m f = s.setMotor m u := by
  simp [runMotor_eq_setMotor, h]

theorem runMotor_of_none {m : Motor} {f : MotorUnit → Option MotorUnit}
    (h : f (s.motor m) = none) : s.runMotor m f = s.setMotor m (s.motor m).forceSafe := by
  simp [runMotor_eq_setMotor, h]

end Sys2Proof.Machine
end

