-- ==== Sys2Proof/Laws/Motor.lean ====
section
/-! SUPPORT. What each stage of a motor-loop unit can do, said once: when it answers, with what value, and which fields
it may change. -/

namespace Sys2Proof.Machine

/-! ### The laws -/

@[simp] theorem error_eq (u : MotorUnit) (clk : Word) : u.error clk = u.setpoint.toInt * 4 - clk.toInt := rfl

@[simp] theorem leaked_eq (u : MotorUnit) (clk : Word) :
    u.leaked clk = (u.integralError * 63).tdiv 64 + (u.setpoint.toInt * 4 - clk.toInt) := rfl

theorem not_neutral {sp : Int} (h0 : sp ≠ 0) (hl : -100 ≤ sp) (hh : sp ≤ 100) : ¬ Neutral sp := by
  unfold Neutral; omega

/-- The unit after a PD step whose checks hold (R163). -/
def MotorUnit.afterPd (c : Config) (u : MotorUnit) (clk : Word) : MotorUnit :=
  let e := u.setpoint.toInt * 4 - clk.toInt
  { u with acc := clamp (u.acc + e * c.kp + (e - u.lastError) * c.kd) (-8128) 8128, lastError := e }

/-- The unit after a PID step whose checks hold (R165). -/
def MotorUnit.afterPid (c : Config) (u : MotorUnit) (clk : Word) : MotorUnit :=
  let e := u.setpoint.toInt * 4 - clk.toInt
  let ig := (u.integralError * 63).tdiv 64 + e
  { u with
    integralError := ig
    acc := clamp (e * c.kps + ig * c.kis + (e - u.lastError) * c.kds) (-8128) 8128
    lastError := e }

/-- Everything PdStep can do. -/
theorem pdStep_cases (c : Config) (u : MotorUnit) (clk : Word) :
    (Neutral (sext8 u.setpoint) ∧ u.pdStep c clk = some (u.neutralStep c, 0)) ∨
    (¬ Neutral (sext8 u.setpoint) ∧ PdChecks c u clk ∧
      u.pdStep c clk = some (u.afterPd c clk, asr (u.afterPd c clk).acc 6)) ∨
    (¬ Neutral (sext8 u.setpoint) ∧ ¬ PdChecks c u clk ∧ u.pdStep c clk = none) := by
  by_cases hn : Neutral (sext8 u.setpoint)
  · exact .inl ⟨hn, by simp only [MotorUnit.pdStep, if_pos hn]⟩
  · by_cases hc : PdChecks c u clk
    · exact .inr (.inl ⟨hn, hc, by
        simp only [PdChecks] at hc
        simp only [MotorUnit.pdStep, if_neg hn, error_eq, MotorUnit.afterPd]; exact if_pos hc⟩)
    · exact .inr (.inr ⟨hn, hc, by
        simp only [PdChecks] at hc
        simp only [MotorUnit.pdStep, if_neg hn, error_eq]; exact if_neg hc⟩)

/-- Everything PidStep can do. -/
theorem pidStep_cases (c : Config) (u : MotorUnit) (clk : Word) :
    (Neutral (sext8 u.setpoint) ∧ u.pidStep c clk = some (u.neutralStep c, 0)) ∨
    (¬ Neutral (sext8 u.setpoint) ∧ PidChecks c u clk ∧
      u.pidStep c clk = some (u.afterPid c clk, asr (u.afterPid c clk).acc 6)) ∨
    (¬ Neutral (sext8 u.setpoint) ∧ ¬ PidChecks c u clk ∧ u.pidStep c clk = none) := by
  by_cases hn : Neutral (sext8 u.setpoint)
  · exact .inl ⟨hn, by simp only [MotorUnit.pidStep, if_pos hn]⟩
  · by_cases hc : PidChecks c u clk
    · exact .inr (.inl ⟨hn, hc, by
        simp only [PidChecks] at hc
        simp only [MotorUnit.pidStep, if_neg hn, error_eq, leaked_eq, MotorUnit.afterPid]; exact if_pos hc⟩)
    · exact .inr (.inr ⟨hn, hc, by
        simp only [PidChecks] at hc
        simp only [MotorUnit.pidStep, if_neg hn, error_eq, leaked_eq]; exact if_neg hc⟩)

/-- Where the checks of the selected law hold, the law stage answers, and with the value of that law (R175). -/
theorem lawStep_of_checks {c : Config} {u : MotorUnit} {clk : Word} (h : LawChecks c u clk) :
    ∃ u', u.lawStep c clk = some (u', lawValue c u clk) := by
  unfold LawChecks at h
  unfold MotorUnit.lawStep lawValue
  cases hl : u.law <;> simp only [hl] at h ⊢
  · exact ⟨u, by rw [MotorUnit.directDuty, sext8, clamp_eq_max_min (by decide)]⟩
  · rcases pdStep_cases c u clk with ⟨hn, h'⟩ | ⟨hn, _, h'⟩ | ⟨hn, hc, _⟩ <;> simp only [sext8] at hn
    · exact ⟨_, by rw [h', if_pos hn]⟩
    · exact ⟨_, by rw [h', if_neg hn, asr_six, MotorUnit.afterPd, clamp_eq_max_min (by decide)]⟩
    · exact absurd h (by simp [hn, hc])
  · rcases pidStep_cases c u clk with ⟨hn, h'⟩ | ⟨hn, _, h'⟩ | ⟨hn, hc, _⟩ <;> simp only [sext8] at hn
    · exact ⟨_, by rw [h', if_pos hn]⟩
    · exact ⟨_, by rw [h', if_neg hn, asr_six, MotorUnit.afterPid, clamp_eq_max_min (by decide)]⟩
    · exact absurd h (by simp [hn, hc])

/-- A law stage changes last_error, integral_error and acc only (R163, R165, R167). -/
theorem lawStep_frame {c : Config} {u u' : MotorUnit} {clk : Word} {x : Int}
    (h : u.lawStep c clk = some (u', x)) :
    u' = { u with lastError := u'.lastError, integralError := u'.integralError, acc := u'.acc } := by
  have neutral : u.neutralStep c = { u with
      lastError := (u.neutralStep c).lastError, integralError := (u.neutralStep c).integralError,
      acc := (u.neutralStep c).acc } := by
    unfold MotorUnit.neutralStep; split <;> rfl
  unfold MotorUnit.lawStep at h
  split at h
  · simp only [Option.some.injEq, Prod.mk.injEq] at h; rw [← h.1]
  · rcases pdStep_cases c u clk with ⟨_, h'⟩ | ⟨_, _, h'⟩ | ⟨_, _, h'⟩ <;> rw [h'] at h
    · simp only [Option.some.injEq, Prod.mk.injEq] at h; rw [← h.1]; exact neutral
    · simp only [Option.some.injEq, Prod.mk.injEq] at h; rw [← h.1]; rfl
    · cases h
  · rcases pidStep_cases c u clk with ⟨_, h'⟩ | ⟨_, _, h'⟩ | ⟨_, _, h'⟩ <;> rw [h'] at h
    · simp only [Option.some.injEq, Prod.mk.injEq] at h; rw [← h.1]; exact neutral
    · simp only [Option.some.injEq, Prod.mk.injEq] at h; rw [← h.1]; rfl
    · cases h

/-! ### The current limiter -/

/-- The correction after a ClimStep whose checks hold (R168). -/
def MotorUnit.newCorrection (c : Config) (u : MotorUnit) (x : Int) (cur : Word) : Int :=
  clamp (u.correction + ((c.iLimit : Int) - (cur.toNat : Int))) (-(|x| * (c.clFactor : Int))) 0

/-- The value ClimStep returns for a correction (R168). -/
def climOutput (c : Config) (x k : Int) : Int := clamp (x + x.sign * k.tdiv (c.iLimitScale : Int)) (-127) 127

/-- Everything ClimStep can do. -/
theorem climStep_cases (c : Config) (u : MotorUnit) (x : Int) (cur : Word) :
    (ClimChecks c u x cur ∧
      u.climStep c x cur = some ({ u with correction := u.newCorrection c x cur },
        climOutput c x (u.newCorrection c x cur))) ∨
    (¬ ClimChecks c u x cur ∧ u.climStep c x cur = none) := by
  by_cases hc : ClimChecks c u x cur
  · refine .inl ⟨hc, ?_⟩
    simp only [ClimChecks, ← neg_mul] at hc
    simp only [MotorUnit.climStep, absInt_eq_abs, zext16, if_pos hc, MotorUnit.newCorrection, climOutput, sgn_eq_sign,
      tdiv, ← neg_mul]
  · refine .inr ⟨hc, ?_⟩
    simp only [ClimChecks, ← neg_mul] at hc
    simp only [MotorUnit.climStep, absInt_eq_abs, zext16, if_neg hc]

theorem newCorrection_bounds (c : Config) (u : MotorUnit) (x : Int) (cur : Word) :
    -(|x| * (c.clFactor : Int)) ≤ u.newCorrection c x cur ∧ u.newCorrection c x cur ≤ 0 := by
  have h : -(|x| * (c.clFactor : Int)) ≤ 0 := by
    have := mul_nonneg (abs_nonneg x) (Int.natCast_nonneg c.clFactor); omega
  exact ⟨le_clamp h _, clamp_le h _⟩

theorem climOutput_range (c : Config) (x k : Int) : -127 ≤ climOutput c x k ∧ climOutput c x k ≤ 127 :=
  ⟨le_clamp (by decide) _, clamp_le (by decide) _⟩

/-! ### The power limiter -/

@[simp] theorem storeSample_ring (u : MotorUnit) (cur : Word) :
    (u.storeSample cur).ring = u.ring.set u.ringIdx.val cur u.ringIdx.isLt := rfl
@[simp] theorem storeSample_ringIdx (u : MotorUnit) (cur : Word) : (u.storeSample cur).ringIdx = u.ringIdx + 1 := rfl

/-- Everything PlimStep can do (R170): trip, decay or pass. -/
theorem plimStep_cases (c : Config) (u : MotorUnit) (x : Int) (cur vb : Word) :
    (4 * c.pNominal < u.powerEstimate cur vb ∧
      u.plimStep c x cur vb = ({ u.storeSample cur with decayCounter := c.decayMax }, 0)) ∨
    (¬ 4 * c.pNominal < u.powerEstimate cur vb ∧ 0 < u.decayCounter ∧
      u.plimStep c x cur vb = ({ u.storeSample cur with decayCounter := u.decayCounter - 1 }, 0)) ∨
    (¬ 4 * c.pNominal < u.powerEstimate cur vb ∧ u.decayCounter = 0 ∧
      u.plimStep c x cur vb = (u.storeSample cur, x)) := by
  by_cases ht : 4 * c.pNominal < u.powerEstimate cur vb
  · exact .inl ⟨ht, by simp only [MotorUnit.plimStep, if_pos ht]⟩
  · by_cases hd : 0 < u.decayCounter
    · exact .inr (.inl ⟨ht, hd, by simp only [MotorUnit.plimStep, if_neg ht, if_pos hd]⟩)
    · exact .inr (.inr ⟨ht, by omega, by simp only [MotorUnit.plimStep, if_neg ht, if_neg hd]⟩)

/-- PlimStep changes ring, ring_idx and decay_counter only. -/
theorem plimStep_frame (c : Config) (u : MotorUnit) (x : Int) (cur vb : Word) :
    (u.plimStep c x cur vb).1 = { u with
      ring := (u.plimStep c x cur vb).1.ring, ringIdx := (u.plimStep c x cur vb).1.ringIdx,
      decayCounter := (u.plimStep c x cur vb).1.decayCounter } := by
  rcases plimStep_cases c u x cur vb with ⟨_, h⟩ | ⟨_, _, h⟩ | ⟨_, _, h⟩ <;> rw [h] <;> rfl

/-- PlimStep passes its input or forces 0 (R170). -/
theorem plimStep_value (c : Config) (u : MotorUnit) (x : Int) (cur vb : Word) :
    (u.plimStep c x cur vb).2 = x ∨ (u.plimStep c x cur vb).2 = 0 := by
  rcases plimStep_cases c u x cur vb with ⟨_, h⟩ | ⟨_, _, h⟩ | ⟨_, _, h⟩ <;> simp [h]

/-- The decay counter stays at most DECAY_MAX (R45). -/
theorem plimStep_decay_le {c : Config} {u : MotorUnit} (h : u.decayCounter ≤ c.decayMax) (x : Int) (cur vb : Word) :
    (u.plimStep c x cur vb).1.decayCounter ≤ c.decayMax := by
  rcases plimStep_cases c u x cur vb with ⟨_, h'⟩ | ⟨_, _, h'⟩ | ⟨_, _, h'⟩ <;> simp only [h']
  · exact le_refl c.decayMax
  · exact (Nat.sub_le u.decayCounter 1).trans h
  · exact h

/-! ### The actuation -/

/-- Everything ActStep can do (R173): a dead tick, or one driven channel. -/
theorem actStep_cases (c : Config) (u : MotorUnit) (x : Int) :
    (deadTick c (.ofSgn (clamp x (-127) 127)) u.lastDirection = true ∧
      u.actStep c x = { u with dutyA := 0, dutyB := 0, lastDirection := .ofSgn (clamp x (-127) 127) }) ∨
    (deadTick c (.ofSgn (clamp x (-127) 127)) u.lastDirection = false ∧
      u.actStep c x = { u with dutyA := (clamp x (-127) 127).toNat, dutyB := (-clamp x (-127) 127).toNat,
                               lastDirection := .ofSgn (clamp x (-127) 127) }) := by
  by_cases h : deadTick c (.ofSgn (clamp x (-127) 127)) u.lastDirection = true
  · exact .inl ⟨h, by simp only [MotorUnit.actStep, if_pos h]⟩
  · exact .inr ⟨by simpa using h, by simp only [MotorUnit.actStep, if_neg h]⟩

/-- ActStep changes the duties and last_direction only. -/
theorem actStep_frame (c : Config) (u : MotorUnit) (x : Int) :
    u.actStep c x = { u with
      dutyA := (u.actStep c x).dutyA, dutyB := (u.actStep c x).dutyB, lastDirection := (u.actStep c x).lastDirection } := by
  rcases actStep_cases c u x with ⟨_, h⟩ | ⟨_, h⟩ <;> rw [h]

/-- A command of 0 drives neither channel (R174). -/
theorem actStep_zero (c : Config) (u : MotorUnit) : (u.actStep c 0).dutyA = 0 ∧ (u.actStep c 0).dutyB = 0 := by
  rcases actStep_cases c u 0 with ⟨_, h⟩ | ⟨_, h⟩ <;> rw [h] <;> exact ⟨rfl, rfl⟩

/-- The duties after ActStep: within [0, 127], at most one nonzero, each only in its own direction (R48, R173). -/
theorem actStep_duties (c : Config) (u : MotorUnit) (x : Int) :
    (u.actStep c x).dutyA ≤ 127 ∧ (u.actStep c x).dutyB ≤ 127 ∧
    ((u.actStep c x).dutyA = 0 ∨ (u.actStep c x).dutyB = 0) ∧
    ((u.actStep c x).dutyA ≠ 0 → (u.actStep c x).lastDirection = .positive) ∧
    ((u.actStep c x).dutyB ≠ 0 → (u.actStep c x).lastDirection = .negative) := by
  have hl := le_clamp (lo := -127) (hi := 127) (by decide) x
  have hh := clamp_le (lo := -127) (hi := 127) (by decide) x
  rcases actStep_cases c u x with ⟨_, h⟩ | ⟨_, h⟩ <;> rw [h]
  · simp
  · simp only [ofSgn_eq_positive, ofSgn_eq_negative]
    omega

/-- A channel is driven only if the unit's last direction was not the opposite one (R173, R178). -/
theorem actStep_no_reversal (c : Config) (u : MotorUnit) (x : Int) :
    (u.lastDirection = .positive → (u.actStep c x).dutyB = 0) ∧
    (u.lastDirection = .negative → (u.actStep c x).dutyA = 0) := by
  rcases actStep_cases c u x with ⟨_, h⟩ | ⟨hd, h⟩ <;> rw [h]
  · exact ⟨fun _ => rfl, fun _ => rfl⟩
  · constructor <;> intro hl <;> rw [hl] at hd
    · by_contra hne
      have hneg : Direction.ofSgn (clamp x (-127) 127) = .negative := ofSgn_eq_negative.2 (by simp at hne; omega)
      rw [hneg] at hd; simp [deadTick] at hd
    · by_contra hne
      have hpos : Direction.ofSgn (clamp x (-127) 127) = .positive := ofSgn_eq_positive.2 (by simp at hne; omega)
      rw [hpos] at hd; simp [deadTick] at hd

/-! ### The tick -/

/-- Everything one tick of a unit can do (R175): all four stages, or none of them. -/
theorem opTick_cases (c : Config) (p : MotorPorts) (u : MotorUnit) :
    (∃ u1 x1 u2 x2, u.lawStep c p.measClicks = some (u1, x1) ∧ u1.climStep c x1 p.measCurrent = some (u2, x2) ∧
      u.opTick c p = some { (u2.plimStep c x2 p.measCurrent p.busVoltage).1.actStep c
          (u2.plimStep c x2 p.measCurrent p.busVoltage).2 with
        v := (u2.plimStep c x2 p.measCurrent p.busVoltage).2 }) ∨
    (u.lawStep c p.measClicks = none ∧ u.opTick c p = none) ∨
    (∃ u1 x1, u.lawStep c p.measClicks = some (u1, x1) ∧ u1.climStep c x1 p.measCurrent = none ∧
      u.opTick c p = none) := by
  unfold MotorUnit.opTick
  cases h1 : u.lawStep c p.measClicks with
  | none => exact .inr (.inl ⟨rfl, rfl⟩)
  | some r1 =>
    obtain ⟨u1, x1⟩ := r1
    cases h2 : u1.climStep c x1 p.measCurrent with
    | none => exact .inr (.inr ⟨u1, x1, rfl, h2, by simp only [h2]⟩)
    | some r2 =>
      obtain ⟨u2, x2⟩ := r2
      exact .inl ⟨u1, x1, u2, x2, rfl, h2, by simp only [h2]⟩

end Sys2Proof.Machine
end

