-- ==== Sys2Proof/Laws/MotorInv.lean ====
section
/-! SUPPORT. The ranges of a motor-loop unit (`MotorInv`) through each stage of a tick, and the checks of R163, R165 and
R168 under well-chosen gains (`Config.WellChosen`). -/

namespace Sys2Proof.Machine

/-! ### Arithmetic -/

theorem not_neutral_range {sp : BitVec 8} (h : ¬ Neutral (sext8 sp)) :
    sp.toInt ≠ 0 ∧ -100 ≤ sp.toInt ∧ sp.toInt ≤ 100 := by
  unfold Neutral sext8 at h; omega

theorem clicks_range (c : Word) : -32768 ≤ c.toInt ∧ c.toInt ≤ 32767 := by
  have := BitVec.toInt_lt (x := c); have := BitVec.le_toInt (x := c); norm_num at *; omega

/-- The leak of R165 shrinks a value below 64 · 33168 to one below 63 · 33168. -/
theorem leak_bound {x : Int} (h : x.natAbs < 64 * 33168) : ((x * 63).tdiv 64).natAbs < 63 * 33168 := by
  rw [Int.natAbs_tdiv]; show (x * 63).natAbs / 64 < _; omega

theorem abs_mul_le {x : Int} (c : Nat) (h : -127 ≤ x ∧ x ≤ 127) : |x| * (c : Int) ≤ 127 * c :=
  mul_le_mul_of_nonneg_right (abs_le.2 h) (Int.natCast_nonneg c)

theorem inRange32_of_natAbs_le {x : Int} {n : Nat} (h : x.natAbs ≤ n) (hn : n ≤ 2147483647) : InRange32 x := by
  unfold InRange32; omega

theorem natAbs_mul_le {x k : Int} {b : Nat} (h : x.natAbs ≤ b) : (x * k).natAbs ≤ b * k.natAbs := by
  rw [Int.natAbs_mul]; exact Nat.mul_le_mul_right _ h

/-- A correction in [-(a · c), 0] divided by b ≥ c lies in [-a, 0] (R180). -/
theorem tdiv_bounds {k a : Int} {b c : Nat} (h : -(a * (c : Int)) ≤ k) (hk : k ≤ 0) (ha : 0 ≤ a) (hb : c ≤ b) :
    -a ≤ k.tdiv b ∧ k.tdiv b ≤ 0 := by
  obtain ⟨n, rfl⟩ : ∃ n : Nat, k = -(n : Int) := ⟨k.natAbs, by omega⟩
  obtain ⟨a, rfl⟩ : ∃ n : Nat, a = (n : Int) := ⟨a.natAbs, by omega⟩
  rw [Int.neg_tdiv, ← Int.ofNat_tdiv]
  have h1 : n ≤ a * c := by exact_mod_cast (by linarith : (n : Int) ≤ a * c)
  have : n / b ≤ a := by
    rcases Nat.eq_zero_or_pos b with rfl | hb0
    · simp
    · exact Nat.div_le_of_le_mul (by nlinarith)
  generalize n / b = q at *
  omega

/-- The sum of a list after one entry is replaced. -/
theorem sum_set (l : List Nat) (i : Nat) (h : i < l.length) (a : Nat) : (l.set i a).sum = l.sum - l.getD i 0 + a := by
  induction l generalizing i with
  | nil => simp at h
  | cons x xs ih =>
    cases i with
    | zero => simp; omega
    | succ i =>
      simp only [List.length_cons, Nat.add_lt_add_iff_right] at h
      have := ih i h
      have h2 : xs.getD i 0 ≤ xs.sum := by
        rw [List.getD_eq_getElem _ _ h]; exact List.le_sum_of_mem (List.getElem_mem h)
      simp only [List.set_cons_succ, List.sum_cons, List.getD_cons_succ] at *
      omega

/-- The power estimate from the sum of the ring with the oldest sample replaced (R170). -/
theorem powerEstimate_eq (u : MotorUnit) (cur vb : Word) :
    u.powerEstimate cur vb =
      ((u.ring.toList.map BitVec.toNat).sum - (u.ring.toList.getD u.ringIdx.val 0#16).toNat + cur.toNat) / 100
        * vb.toNat := by
  unfold MotorUnit.powerEstimate MotorUnit.average floordiv zext16
  congr 2
  simp only [storeSample_ring, Vector.toList_set, List.map_set]
  rw [sum_set _ _ (by simp)]
  congr 2
  rw [List.getD_eq_getElem _ _ (by simp), List.getD_eq_getElem _ _ (by simp)]
  simp

/-! ### Each stage keeps the ranges -/

variable {c : Config} {u u' : MotorUnit}

theorem neutralStep_inv (h : MotorInv c u) : MotorInv c (u.neutralStep c) := by
  unfold MotorUnit.neutralStep; split
  · exact { h with acc_range := by simp, last_error_range := by simp, integral_range := by simp }
  · exact h

theorem pdStep_inv {clk : Word} {x : Int} (h : MotorInv c u) (hs : u.pdStep c clk = some (u', x)) :
    MotorInv c u' ∧ -127 ≤ x ∧ x ≤ 127 := by
  have hb := clicks_range clk
  rcases pdStep_cases c u clk with ⟨hn, h'⟩ | ⟨hn, _, h'⟩ | ⟨_, _, h'⟩ <;> rw [h'] at hs
  · simp only [Option.some.injEq, Prod.mk.injEq] at hs
    rw [← hs.1, ← hs.2]; exact ⟨neutralStep_inv h, by decide, by decide⟩
  · simp only [Option.some.injEq, Prod.mk.injEq] at hs
    rw [← hs.1, ← hs.2]
    have := not_neutral_range hn
    have ha : -8128 ≤ (u.afterPd c clk).acc ∧ (u.afterPd c clk).acc ≤ 8128 :=
      ⟨le_clamp (by decide) _, clamp_le (by decide) _⟩
    refine ⟨{ h with acc_range := ha, last_error_range := ?_ }, asr_six_range ha.1 ha.2⟩
    show _ ≤ u.setpoint.toInt * 4 - clk.toInt ∧ u.setpoint.toInt * 4 - clk.toInt ≤ _; omega
  · cases hs

theorem pidStep_inv {clk : Word} {x : Int} (h : MotorInv c u) (hs : u.pidStep c clk = some (u', x)) :
    MotorInv c u' ∧ -127 ≤ x ∧ x ≤ 127 := by
  have hb := clicks_range clk
  rcases pidStep_cases c u clk with ⟨hn, h'⟩ | ⟨hn, _, h'⟩ | ⟨_, _, h'⟩ <;> rw [h'] at hs
  · simp only [Option.some.injEq, Prod.mk.injEq] at hs
    rw [← hs.1, ← hs.2]; exact ⟨neutralStep_inv h, by decide, by decide⟩
  · simp only [Option.some.injEq, Prod.mk.injEq] at hs
    rw [← hs.1, ← hs.2]
    have := not_neutral_range hn
    have hi := h.integral_range
    have ha : -8128 ≤ (u.afterPid c clk).acc ∧ (u.afterPid c clk).acc ≤ 8128 :=
      ⟨le_clamp (by decide) _, clamp_le (by decide) _⟩
    refine ⟨{ h with acc_range := ha, last_error_range := ?_, integral_range := ?_ }, asr_six_range ha.1 ha.2⟩
    · show _ ≤ u.setpoint.toInt * 4 - clk.toInt ∧ u.setpoint.toInt * 4 - clk.toInt ≤ _; omega
    · show _ < (u.integralError * 63).tdiv 64 + (u.setpoint.toInt * 4 - clk.toInt) ∧
        (u.integralError * 63).tdiv 64 + (u.setpoint.toInt * 4 - clk.toInt) < _
      have hl := leak_bound (x := u.integralError) (by omega)
      omega
  · cases hs

theorem lawStep_inv {clk : Word} {x : Int} (h : MotorInv c u) (hs : u.lawStep c clk = some (u', x)) :
    MotorInv c u' ∧ -127 ≤ x ∧ x ≤ 127 := by
  unfold MotorUnit.lawStep at hs
  split at hs
  · simp only [Option.some.injEq, Prod.mk.injEq] at hs
    rw [← hs.1, ← hs.2]
    exact ⟨h, le_clamp (by decide) _, clamp_le (by decide) _⟩
  · exact pdStep_inv h hs
  · exact pidStep_inv h hs

theorem climStep_inv {cur : Word} {x y : Int} (h : MotorInv c u) (hx : -127 ≤ x ∧ x ≤ 127)
    (hs : u.climStep c x cur = some (u', y)) : MotorInv c u' ∧ -127 ≤ y ∧ y ≤ 127 := by
  rcases climStep_cases c u x cur with ⟨_, h'⟩ | ⟨_, h'⟩ <;> rw [h'] at hs
  · simp only [Option.some.injEq, Prod.mk.injEq] at hs
    rw [← hs.1, ← hs.2]
    obtain ⟨h1, h2⟩ := newCorrection_bounds c u x cur
    refine ⟨{ h with correction_range := ⟨?_, h2⟩ }, climOutput_range _ _ _⟩
    have := abs_mul_le c.clFactor hx
    show _ ≤ u.newCorrection c x cur
    omega
  · cases hs

theorem plimStep_inv {cur vb : Word} {x : Int} (h : MotorInv c u) (hx : -127 ≤ x ∧ x ≤ 127) :
    MotorInv c (u.plimStep c x cur vb).1 ∧ -127 ≤ (u.plimStep c x cur vb).2 ∧ (u.plimStep c x cur vb).2 ≤ 127 := by
  constructor
  · have hd := plimStep_decay_le h.decay_range x cur vb
    rw [plimStep_frame]
    exact { h with decay_range := hd }
  · rcases plimStep_value c u x cur vb with h | h <;> rw [h] <;> omega

theorem actStep_inv {x : Int} (h : MotorInv c u) : MotorInv c (u.actStep c x) := by
  obtain ⟨h1, h2, h3, h4, h5⟩ := actStep_duties c u x
  rw [actStep_frame]
  exact { h with duty_range := ⟨h1, h2⟩, one_duty := h3, dutyA_direction := h4, dutyB_direction := h5 }

theorem withV_inv {r : MotorUnit × Int} (h : MotorInv c r.1) (hx : -127 ≤ r.2 ∧ r.2 ≤ 127) :
    MotorInv c (MotorUnit.withV r) := { h with v_range := hx }

theorem forceSafe_inv (h : MotorInv c u) : MotorInv c u.forceSafe :=
  { h with duty_range := by simp, one_duty := by simp, dutyA_direction := by simp, dutyB_direction := by simp }

theorem opTick_inv {p : MotorPorts} (h : MotorInv c u) (hs : u.opTick c p = some u') : MotorInv c u' := by
  rcases opTick_cases c p u with ⟨u1, x1, u2, x2, h1, h2, h'⟩ | ⟨_, h'⟩ | ⟨_, _, _, _, h'⟩ <;> rw [h'] at hs
  · simp only [Option.some.injEq] at hs
    rw [← hs]
    have i1 := lawStep_inv h h1
    have i2 := climStep_inv i1.1 i1.2 h2
    have i3 := plimStep_inv (cur := p.measCurrent) (vb := p.busVoltage) i2.1 i2.2
    have i4 := actStep_inv (x := (u2.plimStep c x2 p.measCurrent p.busVoltage).2) i3.1
    exact { i4 with v_range := i3.2 }
  · cases hs
  · cases hs

/-! ### The checks hold under well-chosen gains -/

theorem pdChecks_of_wellChosen {clk : Word} (hw : c.WellChosen) (h : MotorInv c u)
    (hn : ¬ Neutral (sext8 u.setpoint)) : PdChecks c u clk := by
  have h8 := not_neutral_range hn
  have hb := clicks_range clk
  have hle := h.last_error_range
  have hac := h.acc_range
  have hpd := hw.pd
  unfold PdChecks
  generalize he : u.setpoint.toInt * 4 - clk.toInt = e
  have e1 : (e * c.kp).natAbs ≤ 33168 * c.kp.natAbs := natAbs_mul_le (by omega)
  have e2 : ((e - u.lastError) * c.kd).natAbs ≤ 66336 * c.kd.natAbs := natAbs_mul_le (by omega)
  refine ⟨inRange32_of_natAbs_le e1 (by omega), inRange32_of_natAbs_le e2 (by omega), ?_⟩
  generalize e * c.kp = a at *
  generalize (e - u.lastError) * c.kd = b at *
  show _ ∧ _
  omega

theorem pidChecks_of_wellChosen {clk : Word} (hw : c.WellChosen) (h : MotorInv c u)
    (hn : ¬ Neutral (sext8 u.setpoint)) : PidChecks c u clk := by
  have h8 := not_neutral_range hn
  have hb := clicks_range clk
  have hle := h.last_error_range
  have hi := h.integral_range
  have hpd := hw.pid
  have hl := leak_bound (x := u.integralError) (by omega)
  unfold PidChecks
  generalize he : u.setpoint.toInt * 4 - clk.toInt = e
  have e1 : (e * c.kps).natAbs ≤ 33168 * c.kps.natAbs := natAbs_mul_le (by omega)
  have e2 : ((e - u.lastError) * c.kds).natAbs ≤ 66336 * c.kds.natAbs := natAbs_mul_le (by omega)
  have e3 : (((u.integralError * 63).tdiv 64 + e) * c.kis).natAbs ≤ 64 * 33168 * c.kis.natAbs :=
    natAbs_mul_le (by omega)
  refine ⟨inRange32_of_natAbs_le e1 (by omega), inRange32_of_natAbs_le e3 (by omega),
    inRange32_of_natAbs_le e2 (by omega), ?_⟩
  generalize e * c.kps = a at *
  generalize (e - u.lastError) * c.kds = b at *
  generalize ((u.integralError * 63).tdiv 64 + e) * c.kis = d at *
  show _ ∧ _
  omega

theorem climChecks_of_wellChosen {x : Int} {cur : Word} (hw : c.WellChosen) (h : MotorInv c u)
    (hx : -127 ≤ x ∧ x ≤ 127) : ClimChecks c u x cur := by
  have h1 := h.correction_range
  have h2 := hw.clim
  have h3 := hw.limit
  have h4 := abs_mul_le c.clFactor hx
  have h5 : 0 ≤ |x| * (c.clFactor : Int) := mul_nonneg (abs_nonneg x) (Int.natCast_nonneg _)
  have h6 := cur.isLt
  unfold ClimChecks InRange32
  omega

theorem lawChecks_of_wellChosen {clk : Word} (hw : c.WellChosen) (h : MotorInv c u) : LawChecks c u clk := by
  unfold LawChecks
  split
  · trivial
  · by_cases hn : Neutral u.setpoint.toInt
    · exact .inl hn
    · exact .inr (pdChecks_of_wellChosen hw h hn)
  · by_cases hn : Neutral u.setpoint.toInt
    · exact .inl hn
    · exact .inr (pidChecks_of_wellChosen hw h hn)

/-- Under well-chosen gains every tick of a unit in its ranges passes its checks (R15). -/
theorem tickChecks_of_wellChosen {p : MotorPorts} (hw : c.WellChosen) (h : MotorInv c u) : TickChecks c u p where
  law := lawChecks_of_wellChosen hw h
  clim := by
    obtain ⟨u1, h1⟩ := lawStep_of_checks (lawChecks_of_wellChosen (clk := p.measClicks) hw h)
    exact climChecks_of_wellChosen hw h (lawStep_inv h h1).2

/-! ### No stage but the ones on v reads v -/

theorem climStep_withV (c : Config) (u : MotorUnit) (x v : Int) (cur : Word) :
    (({ u with v := v } : MotorUnit).climStep c x cur).map MotorUnit.withV =
      (u.climStep c x cur).map MotorUnit.withV := by
  unfold MotorUnit.climStep
  dsimp only
  split <;> rfl

theorem plimStep_withV (c : Config) (u : MotorUnit) (x v : Int) (cur vb : Word) :
    ({ u with v := v } : MotorUnit).plimStep c x cur vb =
      ({ (u.plimStep c x cur vb).1 with v := v }, (u.plimStep c x cur vb).2) := by
  have he : ({ u with v := v } : MotorUnit).powerEstimate cur vb = u.powerEstimate cur vb := rfl
  rcases plimStep_cases c u x cur vb with ⟨h, h'⟩ | ⟨h, hd, h'⟩ | ⟨h, hd, h'⟩ <;> rw [h']
  · simp only [MotorUnit.plimStep, he, if_pos h]; rfl
  · simp only [MotorUnit.plimStep, he, if_neg h, if_pos hd]; rfl
  · have hd' : ¬ 0 < u.decayCounter := by omega
    simp only [MotorUnit.plimStep, he, if_neg h, if_neg hd']; rfl

theorem actStep_withV (c : Config) (u : MotorUnit) (x v : Int) :
    ({ u with v := v } : MotorUnit).actStep c x = { u.actStep c x with v := v } := by
  unfold MotorUnit.actStep
  dsimp only
  split <;> rfl

end Sys2Proof.Machine
end

