-- ==== Sys2Proof/Laws/PerInstr.lean ====
section
/-! SUPPORT. Per operation: its word has the fixed bits of its row of spec/opcode_table.json. One lemma for each
constructor of `Instr`. -/

namespace Sys2Proof.Laws

/-- The word of an operation, masked, is its row's match (R82 to R88). -/
def RowMatches.Statement (i : Instr) : Prop := encode i &&& i.tableRow.1 = i.tableRow.2

theorem RowMatches.crcInit : RowMatches.Statement .crcInit := by
  unfold RowMatches.Statement; decide

theorem RowMatches.crcUpdate (b : Byte) : RowMatches.Statement (.crcUpdate b) := by
  unfold RowMatches.Statement; revert b; decide

theorem RowMatches.crcRead : RowMatches.Statement .crcRead := by
  unfold RowMatches.Statement; decide

theorem RowMatches.protRxpush (b : Byte) : RowMatches.Statement (.protRxpush b) := by
  unfold RowMatches.Statement; revert b; decide

theorem RowMatches.protDecode : RowMatches.Statement .protDecode := by
  unfold RowMatches.Statement; decide

theorem RowMatches.protTake : RowMatches.Statement .protTake := by
  unfold RowMatches.Statement; decide

theorem RowMatches.protSetgate (g : Bool) : RowMatches.Statement (.protSetgate g) := by
  unfold RowMatches.Statement; revert g; decide

theorem RowMatches.protEncode : RowMatches.Statement .protEncode := by
  unfold RowMatches.Statement; decide

theorem RowMatches.protTxdone : RowMatches.Statement .protTxdone := by
  unfold RowMatches.Statement; decide

theorem RowMatches.sysNop : RowMatches.Statement .sysNop := by
  unfold RowMatches.Statement; decide

theorem RowMatches.sysStatus : RowMatches.Statement .sysStatus := by
  unfold RowMatches.Statement; decide

theorem RowMatches.motSetsp (m : Motor) (s : BitVec 8) : RowMatches.Statement (.motSetsp m s) := by
  unfold RowMatches.Statement; cases m <;> revert s <;> decide

theorem RowMatches.motSetlaw (m : Motor) (law : Law) : RowMatches.Statement (.motSetlaw m law) := by
  unfold RowMatches.Statement; cases m <;> cases law <;> decide

theorem RowMatches.motTick (m : Motor) : RowMatches.Statement (.motTick m) := by
  unfold RowMatches.Statement; cases m <;> decide

theorem RowMatches.motDirect (m : Motor) : RowMatches.Statement (.motDirect m) := by
  unfold RowMatches.Statement; cases m <;> decide

theorem RowMatches.motPd (m : Motor) : RowMatches.Statement (.motPd m) := by
  unfold RowMatches.Statement; cases m <;> decide

theorem RowMatches.motPid (m : Motor) : RowMatches.Statement (.motPid m) := by
  unfold RowMatches.Statement; cases m <;> decide

theorem RowMatches.motClim (m : Motor) : RowMatches.Statement (.motClim m) := by
  unfold RowMatches.Statement; cases m <;> decide

theorem RowMatches.motPlim (m : Motor) : RowMatches.Statement (.motPlim m) := by
  unfold RowMatches.Statement; cases m <;> decide

theorem RowMatches.motAct (m : Motor) : RowMatches.Statement (.motAct m) := by
  unfold RowMatches.Statement; cases m <;> decide

end Sys2Proof.Laws
end

