-- ==== Sys2Proof/Laws/Protocol.lean ====
section
/-! SUPPORT. The parser of PROT.DECODE: everything one iteration of its loop can do, what the whole loop keeps, and how
the loop runs over header bytes, a motor field and a led field. -/

namespace Sys2Proof.Machine

/-! ### The response -/

theorem response_msb (d : DecodeRun) : d.response.msb = d.frame.isSome := by
  unfold DecodeRun.response
  rw [BitVec.msb_append]
  cases d.frame.isSome <;> rfl

/-- rsp of PROT.DECODE as a number (R102). -/
theorem response_eq {d : DecodeRun} (h : d.consumed < 32768) :
    d.response = BitVec.ofNat 16 ((if d.frame.isSome then 32768 else 0) + d.consumed) := by
  apply BitVec.eq_of_toNat_eq
  unfold DecodeRun.response
  rw [BitVec.toNat_append]
  simp only [BitVec.toNat_ofNat]
  rw [← Nat.shiftLeft_add_eq_or_of_lt (by omega), Nat.shiftLeft_eq]
  cases d.frame.isSome <;> simp <;> omega

/-! ### One iteration -/

/-- A header state is one in which a header byte is awaited. -/
theorem headerExpect_eq_none {c : Config} {p : PState} :
    headerExpect c p = none ↔ p = .motorData ∨ p = .ledData := by
  cases p <;> simp [headerExpect]

theorem headerStep_ne_ledData {c : Config} {p after : PState} {want b : Byte}
    (h : headerExpect c p = some (want, after)) : headerStep c p want after b ≠ .ledData := by
  unfold headerStep
  cases p <;> simp only [headerExpect, reduceCtorEq, Option.some.injEq, Prod.mk.injEq] at h <;>
    (obtain ⟨rfl, rfl⟩ := h; split <;> [simp; split <;> simp])

/-- One iteration in a header state (R122, R123). -/
theorem parserStep_header {c : Config} {d : DecodeRun} {want b : Byte} {after : PState} {rest : List Byte}
    (h : headerExpect c d.pstate = some (want, after)) (hr : d.rx = b :: rest) (hb : d.consumed + 1 ≤ c.decodeBound) :
    parserStep c d = some { d with
      pstate := headerStep c d.pstate want after b, rx := rest, consumed := d.consumed + 1 } := by
  simp only [parserStep, h, hr, if_pos hb]

/-- One iteration in MOTORDATA (R124). -/
theorem parserStep_motor {c : Config} {d : DecodeRun} {d0 d1 d2 d3 d4 : Byte} {rest : List Byte}
    (h : d.pstate = .motorData) (hr : d.rx = d0 :: d1 :: d2 :: d3 :: d4 :: rest)
    (hb : d.consumed + 5 ≤ c.decodeBound) :
    parserStep c d = some (if d4 = c.ledCustom then
        { d with pstate := .ledData, rx := rest, work := ⟨d0, d1, d2, d3, d4⟩, consumed := d.consumed + 5 }
      else
        { d with pstate := .header1, rx := rest, work := ⟨d0, d1, d2, d3, d4⟩, consumed := d.consumed + 5,
                 frame := some ⟨d0, d1, d2, d3, d4, none⟩ }) := by
  simp only [parserStep, h, headerExpect, hr, if_pos hb, if_true, WorkFrame.toFrame]
  split <;> rfl

/-- One iteration in LEDDATA (R125). -/
theorem parserStep_led {c : Config} {d : DecodeRun} (h : d.pstate = .ledData) (hr : 48 ≤ d.rx.length)
    (hb : d.consumed + 48 ≤ c.decodeBound) :
    parserStep c d = some { d with
      pstate := .header1, rx := d.rx.drop 48, consumed := d.consumed + 48,
      frame := some (d.work.toFrame (some (ledTriples (d.rx.take 48)))) } := by
  simp [parserStep, h, headerExpect, hr, hb]

/-- Everything one iteration can do: the exit conditions of R126 and R127, or one field consumed. -/
theorem parserStep_cases (c : Config) (d : DecodeRun) :
    (parserStep c d = none ∧
      (match d.pstate with
        | .motorData => d.rx.length < 5 ∨ c.decodeBound < d.consumed + 5
        | .ledData => d.rx.length < 48 ∨ c.decodeBound < d.consumed + 48
        | _ => d.rx = [] ∨ c.decodeBound < d.consumed + 1)) ∨
    (∃ want after b rest, headerExpect c d.pstate = some (want, after) ∧ d.rx = b :: rest ∧
      d.consumed + 1 ≤ c.decodeBound ∧
      parserStep c d = some { d with
        pstate := headerStep c d.pstate want after b, rx := rest, consumed := d.consumed + 1 }) ∨
    (∃ d0 d1 d2 d3 d4 rest, d.pstate = .motorData ∧ d.rx = d0 :: d1 :: d2 :: d3 :: d4 :: rest ∧
      d.consumed + 5 ≤ c.decodeBound ∧
      parserStep c d = some (if d4 = c.ledCustom then
          { d with pstate := .ledData, rx := rest, work := ⟨d0, d1, d2, d3, d4⟩, consumed := d.consumed + 5 }
        else
          { d with pstate := .header1, rx := rest, work := ⟨d0, d1, d2, d3, d4⟩, consumed := d.consumed + 5,
                   frame := some ⟨d0, d1, d2, d3, d4, none⟩ })) ∨
    (d.pstate = .ledData ∧ 48 ≤ d.rx.length ∧ d.consumed + 48 ≤ c.decodeBound ∧
      parserStep c d = some { d with
        pstate := .header1, rx := d.rx.drop 48, consumed := d.consumed + 48,
        frame := some (d.work.toFrame (some (ledTriples (d.rx.take 48)))) }) := by
  cases hp : headerExpect c d.pstate with
  | some r =>
    obtain ⟨want, after⟩ := r
    cases hr : d.rx with
    | nil =>
      refine .inl ⟨by simp [parserStep, hp, hr], ?_⟩
      cases h : d.pstate <;> simp_all [headerExpect]
    | cons b rest =>
      by_cases hb : d.consumed + 1 ≤ c.decodeBound
      · exact .inr (.inl ⟨want, after, b, rest, rfl, rfl, hb, parserStep_header hp hr hb⟩)
      · refine .inl ⟨by simp [parserStep, hp, hr, hb], ?_⟩
        cases h : d.pstate <;> simp_all [headerExpect]
  | none =>
    rcases headerExpect_eq_none.1 hp with h | h
    · by_cases hx : ∃ d0 d1 d2 d3 d4 rest, d.rx = d0 :: d1 :: d2 :: d3 :: d4 :: rest
      · obtain ⟨d0, d1, d2, d3, d4, rest, hr⟩ := hx
        by_cases hb : d.consumed + 5 ≤ c.decodeBound
        · exact .inr (.inr (.inl ⟨d0, d1, d2, d3, d4, rest, h, hr, hb, parserStep_motor h hr hb⟩))
        · exact .inl ⟨by simp [parserStep, h, headerExpect, hr, hb], by simp only [h]; omega⟩
      · refine .inl ⟨?_, ?_⟩
        · simp only [parserStep, h, headerExpect, if_true]
          split
          · rename_i d0 d1 d2 d3 d4 rest hr; exact absurd ⟨d0, d1, d2, d3, d4, rest, hr⟩ hx
          · rfl
        · simp only [h]
          left
          rcases hr : d.rx with _ | ⟨d0, _ | ⟨d1, _ | ⟨d2, _ | ⟨d3, _ | ⟨d4, rest⟩⟩⟩⟩⟩ <;> simp
          exact (hx ⟨_, _, _, _, _, _, hr⟩).elim
    · by_cases hr : 48 ≤ d.rx.length
      · by_cases hb : d.consumed + 48 ≤ c.decodeBound
        · exact .inr (.inr (.inr ⟨h, hr, hb, parserStep_led h hr hb⟩))
        · exact .inl ⟨by simp [parserStep, h, headerExpect, hb], by simp only [h]; omega⟩
      · exact .inl ⟨by simp [parserStep, h, headerExpect, hr], by simp only [h]; omega⟩

/-- An iteration that goes on consumes at least one byte from the front of rx_fifo, within DECODE_BOUND; if it completes
a frame the parser is in HEADER1, and it completes none otherwise. -/
theorem parserStep_consumes {c : Config} {d d' : DecodeRun} (h : parserStep c d = some d') :
    ∃ n, 1 ≤ n ∧ n ≤ d.rx.length ∧ d'.rx = d.rx.drop n ∧ d'.consumed = d.consumed + n ∧ d'.consumed ≤ c.decodeBound ∧
      (d'.frame = d.frame ∨ (d'.frame.isSome ∧ d'.pstate = .header1)) := by
  rcases parserStep_cases c d with ⟨h', _⟩ | ⟨want, after, b, rest, _, hr, hb, h'⟩ |
    ⟨d0, d1, d2, d3, d4, rest, _, hr, hb, h'⟩ | ⟨_, hr, hb, h'⟩ <;> rw [h'] at h
  · cases h
  · cases h; exact ⟨1, by simp [hr, hb]⟩
  · cases h; refine ⟨5, ?_⟩; split <;> simp [hr, hb]
  · cases h; exact ⟨48, by simp [hr, hb]⟩

/-! ### The loop -/

theorem parserLoop_of_frame {c : Config} {d : DecodeRun} (n : Nat) (h : d.frame.isSome) : parserLoop c n d = d := by
  cases n <;> simp [parserLoop, h]

theorem parserLoop_of_exit {c : Config} {d : DecodeRun} (n : Nat) (h : parserStep c d = none) :
    parserLoop c n d = d := by
  cases n <;> simp [parserLoop, h]

theorem parserLoop_succ {c : Config} {d d' : DecodeRun} (n : Nat) (hf : d.frame = none)
    (h : parserStep c d = some d') : parserLoop c (n + 1) d = parserLoop c n d' := by
  simp [parserLoop, hf, h]

/-- What every iteration keeps, the loop keeps. -/
theorem parserLoop_induction {c : Config} (P : DecodeRun → Prop)
    (hs : ∀ d d', P d → d.frame = none → parserStep c d = some d' → P d') :
    ∀ (n : Nat) (d : DecodeRun), P d → P (parserLoop c n d)
  | 0, _, h => h
  | n + 1, d, h => by
    cases hf : d.frame with
    | some f => rw [parserLoop_of_frame _ (by simp [hf])]; exact h
    | none =>
      cases hp : parserStep c d with
      | none => rw [parserLoop_of_exit _ hp]; exact h
      | some d' =>
        rw [parserLoop_succ n hf hp]
        exact parserLoop_induction P hs n d' (hs d d' h hf hp)

/-- With as many iterations as there are bytes, the loop ends because a frame is complete or because `parserStep`
exits, and the bytes it consumed are the front of rx_fifo. -/
theorem parserLoop_ends {c : Config} : ∀ (n : Nat) (d : DecodeRun), d.rx.length ≤ n →
    ((parserLoop c n d).frame.isSome ∨ parserStep c (parserLoop c n d) = none) ∧
    ∃ k, k ≤ d.rx.length ∧ (parserLoop c n d).rx = d.rx.drop k ∧ (parserLoop c n d).consumed = d.consumed + k
  | 0, d, h => by
    have hr : d.rx = [] := List.length_eq_zero_iff.1 (Nat.le_zero.1 h)
    refine ⟨.inr ?_, 0, by simp [parserLoop]⟩
    rcases parserStep_cases c d with ⟨h', _⟩ | ⟨_, _, _, _, _, h', _⟩ | ⟨_, _, _, _, _, _, _, h', _⟩ | ⟨_, h', _⟩
    · exact h'
    · rw [hr] at h'; cases h'
    · rw [hr] at h'; cases h'
    · rw [hr] at h'; simp at h'
  | n + 1, d, h => by
    cases hf : d.frame with
    | some f =>
      rw [parserLoop_of_frame _ (by simp [hf])]; exact ⟨.inl (by simp [hf]), 0, by simp⟩
    | none =>
      cases hp : parserStep c d with
      | none => rw [parserLoop_of_exit _ hp]; exact ⟨.inr hp, 0, by simp⟩
      | some d' =>
        rw [parserLoop_succ n hf hp]
        obtain ⟨k, h1, h2, h3, h4, _⟩ := parserStep_consumes hp
        obtain ⟨he, j, h5, h6, h7⟩ := parserLoop_ends n d' (by rw [h3, List.length_drop]; omega)
        refine ⟨he, k + j, ?_, ?_, ?_⟩
        · rw [h3, List.length_drop] at h5; omega
        · rw [h6, h3, List.drop_drop]
        · rw [h7, h4]; omega

/-! ### The loop over a command frame -/

/-- 3n led bytes are n triples, byte j channel j mod 3 of triple floor(j / 3) (R95). -/
theorem ledTriples_get : ∀ (n : Nat) (l : List Byte), l.length = 3 * n →
    (ledTriples l).length = n ∧
    ∀ i < n, (ledTriples l)[i]? = some ⟨l.getD (3*i) 0#8, l.getD (3*i+1) 0#8, l.getD (3*i+2) 0#8⟩
  | 0, l, h => by
    have : l = [] := List.length_eq_zero_iff.1 (by omega)
    subst this; simp [ledTriples]
  | n + 1, l, h => by
    rcases l with _ | ⟨a, _ | ⟨b, _ | ⟨c, l⟩⟩⟩ <;> simp at h <;> try omega
    obtain ⟨h1, h2⟩ := ledTriples_get n l (by omega)
    refine ⟨by simp [ledTriples, h1], fun i hi => ?_⟩
    cases i with
    | zero => simp [ledTriples]
    | succ i =>
      have := h2 i (by omega)
      simp [ledTriples, this, Nat.mul_add]

/-- The triples of the bytes of triples are the triples (R95, R125). -/
theorem ledTriples_bytes : ∀ (leds : List Rgb), ledTriples (leds.flatMap Rgb.bytes) = leds
  | [] => rfl
  | t :: leds => by
    simp only [List.flatMap_cons, Rgb.bytes, List.cons_append, List.nil_append, ledTriples]
    rw [← ledTriples_bytes leds]
    simp [ledTriples_bytes leds]

/-- A triple is three bytes (R95). -/
theorem ledBytes_length : ∀ (leds : List Rgb), (leds.flatMap Rgb.bytes).length = 3 * leds.length
  | [] => rfl
  | t :: leds => by
    simp only [List.flatMap_cons, List.length_append, ledBytes_length leds, List.length_cons]; simp [Rgb.bytes]; omega

/-- The loop over bytes that the header scan takes to `q` without completing a header (R122, R123). -/
theorem parserLoop_scan {c : Config} (rest : List Byte) (n : Nat) (q : PState) : ∀ (noise : List Byte) (d : DecodeRun),
    scanHeader c d.pstate noise = some q → d.rx = noise ++ rest → d.consumed + noise.length ≤ c.decodeBound →
    d.frame = none →
    parserLoop c (noise.length + n) d =
      parserLoop c n { d with pstate := q, rx := rest, consumed := d.consumed + noise.length }
  | [], d, hs, hr, _, _ => by
    simp only [scanHeader, Option.some.injEq] at hs
    simp only [List.nil_append] at hr
    simp only [List.length_nil, Nat.zero_add, Nat.add_zero, ← hs, ← hr]
  | b :: noise, d, hs, hr, hb, hf => by
    simp only [List.length_cons] at hb
    unfold scanHeader at hs
    cases he : headerExpect c d.pstate with
    | none => simp [he] at hs
    | some wa =>
      obtain ⟨want, after⟩ := wa
      simp only [he] at hs
      split at hs
      · cases hs
      · rw [List.length_cons, Nat.add_right_comm,
          parserLoop_succ _ hf (parserStep_header (rest := noise ++ rest) he hr (by omega))]
        rw [parserLoop_scan rest n q noise
          { d with pstate := headerStep c d.pstate want after b, rx := noise ++ rest, consumed := d.consumed + 1 }
          hs rfl (by simp only; omega) hf]
        simp only [Nat.add_assoc, Nat.add_comm 1]

/-- The loop over a whole header from HEADER1 (R122). -/
theorem parserLoop_header {c : Config} (payload : List Byte) (n : Nat) (d : DecodeRun)
    (hp : d.pstate = .header1) (hr : d.rx = c.cmdHdr.toList ++ payload) (hb : d.consumed + 4 ≤ c.decodeBound)
    (hf : d.frame = none) :
    parserLoop c (n + 4) d =
      parserLoop c n { d with pstate := .motorData, rx := payload, consumed := d.consumed + 4 } := by
  obtain ⟨p, rx, w, k, f⟩ := d
  simp only at hp hr hb hf
  subst hp hr hf
  show parserLoop c (n+3+1) _ = _
  rw [parserLoop_succ _ rfl (parserStep_header (c := c) rfl rfl (by simp only; omega))]
  rw [parserLoop_succ _ rfl (parserStep_header (c := c) (want := c.cmdHdr.b1) (after := .header3)
    (by simp [headerStep, headerExpect]) rfl (by simp only; omega))]
  rw [parserLoop_succ _ rfl (parserStep_header (c := c) (want := c.cmdHdr.b2) (after := .header4)
    (by simp [headerStep, headerExpect]) rfl (by simp only; omega))]
  rw [parserLoop_succ _ rfl (parserStep_header (c := c) (want := c.cmdHdr.b3) (after := .motorData)
    (by simp [headerStep, headerExpect]) rfl (by simp only; omega))]
  simp [headerStep]

/-- The loop over the bytes of a well-formed frame after its header (R124, R125, R129). -/
theorem parserLoop_payload {c : Config} (f : CommandFrame) (hf : f.Wf c) (rest : List Byte) (n : Nat) (d : DecodeRun)
    (hp : d.pstate = .motorData) (hr : d.rx = f.payload ++ rest) (hb : d.consumed + f.payload.length ≤ c.decodeBound)
    (hn : d.frame = none) :
    parserLoop c (n + 2) d = { d with
      pstate := .header1, rx := rest, work := ⟨f.motorMode, f.m1, f.m2, f.m3, f.ledMode⟩,
      consumed := d.consumed + f.payload.length, frame := some f } := by
  obtain ⟨mm, m1, m2, m3, lm, ld⟩ := f
  cases ld with
  | none =>
    simp only [CommandFrame.Wf] at hf
    simp only [CommandFrame.payload, CommandFrame.ledBytes, List.append_nil, List.length_cons, List.length_nil] at hb hr
    have h1 := parserStep_motor hp hr (by omega)
    rw [if_neg hf] at h1
    rw [parserLoop_succ _ hn h1, parserLoop_of_frame _ rfl]
    simp [CommandFrame.payload, CommandFrame.ledBytes]
  | some leds =>
    simp only [CommandFrame.Wf] at hf
    have hl := ledBytes_length leds
    rw [hf.2] at hl
    simp only [CommandFrame.payload, CommandFrame.ledBytes, List.length_append, List.length_cons, List.length_nil,
      hl] at hb hr
    have hr' : d.rx = mm :: m1 :: m2 :: m3 :: lm :: (leds.flatMap Rgb.bytes ++ rest) := by simpa using hr
    have h1 := parserStep_motor (c := c) hp hr' (by omega)
    rw [if_pos hf.1] at h1
    rw [parserLoop_succ _ hn h1]
    rw [parserLoop_succ
      (d := { d with
        pstate := .ledData, rx := leds.flatMap Rgb.bytes ++ rest, work := ⟨mm, m1, m2, m3, lm⟩,
        consumed := d.consumed + 5 }) _ hn
      (parserStep_led (c := c) rfl
        (by show 48 ≤ (leds.flatMap Rgb.bytes ++ rest).length; rw [List.length_append]; omega)
        (by simp only; omega))]
    rw [parserLoop_of_frame _ rfl]
    simp only [CommandFrame.payload, CommandFrame.ledBytes, List.length_append, List.length_cons, List.length_nil,
      hl]
    rw [List.take_append_of_le_length (by omega), List.drop_append_of_le_length (by omega),
      List.drop_of_length_le (by omega), List.take_of_length_le (by omega), ledTriples_bytes]
    simp [WorkFrame.toFrame]

end Sys2Proof.Machine
end

