-- ==== Sys2Proof/Laws/Step.lean ====
section
/-! SUPPORT. Everything one step can do, said once: the three kinds of event, and the two kinds of command word. -/

namespace Sys2Proof.Machine

/-- Everything the fetch can give (R60). -/
theorem nextEvent_cases (s : State) :
    (s.pending = [] ∧ s.nextEvent = none) ∨
    (∃ rest, s.pending = .reset :: rest ∧ s.nextEvent = some (.reset, { s with pending := rest })) ∨
    (∃ c rest, s.pending = .command c :: rest ∧
      s.nextEvent = some (.command c, { s with pending := rest, ports := c.ports })) := by
  unfold State.nextEvent
  split
  · rename_i h; exact .inl ⟨h, rfl⟩
  · rename_i rest h; exact .inr (.inl ⟨rest, h, rfl⟩)
  · rename_i c rest h; exact .inr (.inr ⟨c, rest, h, rfl⟩)

/-- Everything a command word can do (R88). -/
theorem runWord_cases (w : Word) (s : State) :
    (∃ i, decode w = .ok i ∧ runWord w s = exec i s) ∨
    (∃ g, decode w = .error g ∧ runWord w s = .next { s with illegalCmd := true }) := by
  unfold runWord
  cases h : decode w with
  | ok i => exact .inl ⟨i, rfl, rfl⟩
  | error g => exact .inr ⟨g, rfl, rfl⟩

/-- Everything a step can do. -/
theorem step_cases (s : State) :
    (s.pending = [] ∧ step s = .next s) ∨
    (∃ rest, s.pending = .reset :: rest ∧ step s = .next ({ s with pending := rest } : State).resetEvent) ∨
    (∃ c rest i, s.pending = .command c :: rest ∧ decode c.word = .ok i ∧
      step s = exec i { s with pending := rest, ports := c.ports }) ∨
    (∃ c rest g, s.pending = .command c :: rest ∧ decode c.word = .error g ∧
      step s = .next { s with pending := rest, ports := c.ports, illegalCmd := true }) := by
  rcases nextEvent_cases s with ⟨h, h'⟩ | ⟨rest, h, h'⟩ | ⟨c, rest, h, h'⟩
  · exact .inl ⟨h, by rw [step, h']⟩
  · exact .inr (.inl ⟨rest, h, by rw [step, h']⟩)
  · rcases runWord_cases c.word { s with pending := rest, ports := c.ports } with ⟨i, hd, hr⟩ | ⟨g, hd, hr⟩
    · exact .inr (.inr (.inl ⟨c, rest, i, h, hd, by rw [step, h']; exact hr⟩))
    · exact .inr (.inr (.inr ⟨c, rest, g, h, hd, by rw [step, h']; exact hr⟩))

end Sys2Proof.Machine
end

