-- ==== Sys2Proof/Laws/Telemetry.lean ====
section
/-! SUPPORT. The lengths of the pieces of a telemetry frame (R99, R100). -/

namespace Sys2Proof.Machine

@[simp] theorem elementBytes_length (be : Bool) (w : Nat) (x : Int) : (elementBytes be w x).length = w := by
  unfold elementBytes; cases be <;> simp

theorem groupBytes_length (be : Bool) (g : Nat) (grp : TlmGroup) (xs : List Int) :
    (groupBytes be g grp xs).length = grp.count * grp.width := by
  unfold groupBytes
  simp [List.length_flatMap]

theorem motorBytes_length (be : Bool) (l : TlmLayout) (x : MotorSample) :
    (motorBytes be l x).length = (l.motorFields.map TlmField.width).sum := by
  simp [motorBytes, TlmLayout.motorFields]

/-- A sample is BODY_LEN bytes (R100). -/
theorem serialize_length (c : Config) (t : TelemetrySample) : (serialize c t).length = c.tlmLayout.bodyLen := by
  simp only [serialize, List.length_append, groupBytes_length, motorBytes_length, TlmLayout.bodyLen, TlmLayout.groups,
    List.map_cons, List.map_nil, List.sum_cons, List.sum_nil]
  omega

theorem frameBody_length (c : Config) (t : TelemetrySample) :
    (frameBody c t).length = 4 + c.tlmLayout.bodyLen := by
  simp only [frameBody, List.length_append, serialize_length]; rfl

@[simp] theorem crcBytes_length (v : Word) : (crcBytes v).length = 2 := rfl

/-- A sample that lists its elements has the listed ones (R36). -/
theorem map_elementAt (g : Nat) (xs : List Int) : (List.range xs.length).map (elementAt g xs) = xs := by
  apply List.ext_getElem
  · simp
  · intro i h1 h2
    simp [elementAt, h2]

/-- A group that lists all its elements is their bytes in order (R99). -/
theorem groupBytes_eq_flatMap {be : Bool} {g : Nat} {grp : TlmGroup} {xs : List Int} (h : xs.length = grp.count) :
    groupBytes be g grp xs = xs.flatMap (elementBytes be grp.width) := by
  unfold groupBytes
  conv_rhs => rw [← map_elementAt g xs]
  rw [List.flatMap_map, h]

end Sys2Proof.Machine
end

