-- ==== Sys2Proof/Tests/Slice0.lean ====
section
/-! SUPPORT. Tests on fixed values. Expected results come from spec/95_test_vectors.md (named in each comment) or from a
rule's own corner cases; the reference configuration REF is the one of its section 1. After them, one witness for each
statement that has hypotheses: a concrete state and operands that meet them all. -/

namespace Sys2Proof.Tests

open Sys2Proof.Machine

/-! ### Helpers -/

/-- The reset state under REF. -/
def ref : State := State.resetWith Config.ref (generatedTable 0x1021#16)

/-- The state after an operation. -/
def after (i : Instr) (s : State) : State :=
  match exec i s with
  | .next t => t
  | .fault _ => s
  | .refused _ => s

/-- `ref` with the given values on the ports of every motor-loop unit. -/
def onPorts (s : State) (current clicks voltage : Word) : State :=
  let p : MotorPorts := ⟨current, clicks, voltage⟩
  { s with ports := { s.ports with motor0 := p, motor1 := p, motor2 := p } }

/-- `ref` with motor-loop unit 0 given. -/
def withUnit (u : MotorUnit) : State := { ref with motor0 := u }

/-- A unit right after reset with a setpoint. -/
def aimed (sp : Int) : MotorUnit := { MotorUnit.reset with setpoint := BitVec.ofInt 8 sp }

/-- `ref` with a configuration changed. -/
def under (c : Config) : State := { ref with cfg := c }

/-- One command word from the tick agent on the port of a state. -/
def issued (s : State) (w : Word) : State := { s with pending := [.command ⟨.tick, w, s.ports⟩] }

/-- The telemetry sample S of section 1. -/
def sampleS : TelemetrySample :=
  ⟨[0xC8], [0], [0x40, 0x41, 0x42], ⟨0x10, 5, 0x20, 0x30⟩, ⟨0x11, -5, 0x21, 0x31⟩, ⟨0x12, 0, 0x22, 0x32⟩,
   [1, -1, 0x1234], [-256, 0, 255], [-2], [7], [8], [9], [0xDEADBEEF], [1], [0x80]⟩

/-- `ref` with sample S on TLM_IN. -/
def sampled (s : State) : State := { s with ports := { s.ports with tlmIn := sampleS } }

/-! ### WellFormed: each check refuses an ill-formed word or configuration -/

theorem test_unit_check_refuses : unitExists 0x3000#16 = false ∧ isReserved 0x3000#16 = true := by decide
theorem test_op_check_refuses : opExists 0x0300#16 = false ∧ isReserved 0x1600#16 = true := by decide
theorem test_imm_check_refuses : immAllowed 0x0001#16 = false ∧ isReserved 0x1302#16 = true := by decide
theorem test_law_check_refuses : lawAllowed 0x8103#16 = false ∧ isReserved 0x8103#16 = true := by decide
theorem test_operation_is_not_reserved : isOperation 0x8102#16 = true ∧ isReserved 0x01FF#16 = false := by decide

theorem test_rx_cap_check_refuses : ¬ { Config.ref with rxBufCap := 47 }.RxBufCapOk := by decide
theorem test_bound_check_refuses : ¬ { Config.ref with decodeBound := 65 }.DecodeBoundOk := by decide
theorem test_modes_check_refuses : ¬ { Config.ref with modeEnAmp := 0x10#8 }.ModesOk := by decide
theorem test_limits_check_refuses : ¬ { Config.ref with iLimitScale := 0 }.LimitsOk := by decide
theorem test_sizes_check_refuses : ¬ { TlmLayout.ref with light := ⟨0, 1, false⟩ }.SizesOk := by decide
theorem test_fixed_check_refuses : ¬ { TlmLayout.ref with bankVoltage := ⟨2, 1, false⟩ }.FixedOk := by decide
theorem test_length_check_refuses : ¬ { TlmLayout.ref with thermal := ⟨65535, 1, false⟩ }.LengthOk := by decide

/-! ### Decode: the words of section 3.2, and a word of every constructor -/

theorem test_decode_crc :
    decode 0b0000_0000_00000000#16 = .ok .crcInit ∧ decode 0b0000_0001_11111111#16 = .ok (.crcUpdate 0xFF#8) ∧
    decode 0b0000_0010_00000000#16 = .ok .crcRead := by decide

theorem test_decode_prot :
    decode 0b0001_0000_11111111#16 = .ok (.protRxpush 0xFF#8) ∧ decode 0b0001_0001_00000000#16 = .ok .protDecode ∧
    decode 0b0001_0010_00000000#16 = .ok .protTake ∧ decode 0b0001_0011_00000001#16 = .ok (.protSetgate true) ∧
    decode 0b0001_0011_00000000#16 = .ok (.protSetgate false) ∧
    decode 0b0001_0100_00000000#16 = .ok .protEncode ∧ decode 0b0001_0101_00000000#16 = .ok .protTxdone := by decide

theorem test_decode_sys :
    decode 0b0010_0000_00000000#16 = .ok .sysNop ∧ decode 0b0010_0001_00000000#16 = .ok .sysStatus := by decide

theorem test_decode_mot :
    decode 0b1000_0000_11001110#16 = .ok (.motSetsp .m0 (BitVec.ofInt 8 (-50))) ∧
    decode 0b1000_0001_00000010#16 = .ok (.motSetlaw .m0 .pid) ∧
    decode 0b1001_0001_00000001#16 = .ok (.motSetlaw .m1 .pd) ∧ decode 0b1000_0010_00000000#16 = .ok (.motTick .m0) ∧
    decode 0b1010_0011_00000000#16 = .ok (.motDirect .m2) ∧ decode 0b1001_0100_00000000#16 = .ok (.motPd .m1) ∧
    decode 0b1000_0101_00000000#16 = .ok (.motPid .m0) ∧ decode 0b1010_0110_00000000#16 = .ok (.motClim .m2) ∧
    decode 0b1001_0111_00000000#16 = .ok (.motPlim .m1) ∧ decode 0b1010_1000_00000000#16 = .ok (.motAct .m2) := by
  decide

theorem test_decode_names_grounds :
    decode 0xB000#16 = .error .unit ∧ decode 0x8900#16 = .error .op ∧ decode 0xA880#16 = .error .imm ∧
    decode 0x8103#16 = .error .law := by decide

theorem test_table_word : decodeTableWord 16 0x8032 = some (.motSetsp .m0 50#8) ∧ decodeTableWord 16 0x2001 = none := by
  decide

/-- R91: the lines of programs P1, P2 and P3. -/
theorem test_assembler :
    (readLine "MOT.SETSP m0, -50".toList).map AsmLine.words = some [0x80CE#16] ∧
    (readLine "MOT.SETLAW m1, PD".toList).map AsmLine.words = some [0x9101#16] ∧
    (readLine "CRC.BLOCK 0x31, 0x32".toList).map AsmLine.words = some [0x0131#16, 0x0132#16] ∧
    (readLine ".word 0x3000".toList).map AsmLine.words = some [0x3000#16] ∧
    readLine "MOT.SETSP m3, 1".toList = none := by decide

/-! ### One step each -/

/-- CO1. -/
theorem test_crc_init : (after .crcInit { ref with crc := 0xBEEF#16 }).crc = 0x0000#16 := by decide
/-- CV3, CV8. -/
theorem test_crc_update : (after (.crcUpdate 0x56#8) { ref with crc := 0x1234#16 }).crc = 0x3C40#16 ∧
    (after (.crcUpdate 0x80#8) { ref with crc := 0x0080#16 }).crc = 0x1188#16 := by decide +kernel
/-- CO3. -/
theorem test_crc_read : (after .crcRead { ref with crc := 0x2672#16 }).rsp = 0x2672#16 := by decide
/-- R120: the order of arrival; the overflow vector. -/
theorem test_rxpush : (after (.protRxpush 0x55#8) { ref with rxFifo := [0xAA#8] }).rxFifo = [0xAA#8, 0x55#8] := by decide
theorem test_rxpush_overflow :
    (after (.protRxpush 0#8) { ref with rxFifo := List.replicate 64 0#8 }).statusWord = 0x0002#16 := by decide +kernel
/-- PV1. -/
theorem test_decode_frame :
    let t := after .protDecode { ref with
      rxFifo := [0xAA#8, 0x55#8, 0xC3#8, 0x3C#8, 0x01#8, 0x32#8, 0xCE#8, 0x00#8, 0x00#8] }
    t.rsp = 0x8009#16 ∧ t.staged = ⟨0x01#8, 0x32#8, 0xCE#8, 0x00#8, 0x00#8, none⟩ := by decide +kernel
/-- PV4, PV5: a header prefix as noise. -/
theorem test_decode_recheck :
    let bytes := [0xAA#8, 0xAA#8, 0x55#8, 0xC3#8, 0x3C#8, 0x01#8, 0x32#8, 0xCE#8, 0x00#8, 0x00#8]
    (after .protDecode { ref with rxFifo := bytes }).rsp = 0x000A#16 ∧
    (after .protDecode { under { Config.ref with resyncRecheck := true } with rxFifo := bytes }).rsp = 0x800A#16 := by
  decide +kernel
/-- GV5, GV2. -/
theorem test_take :
    (after .protTake { ref with stagedValid := true, cmdDisabled := true,
                                staged := ⟨0x15#8, 5#8, 6#8, 7#8, 0#8, none⟩ }).cmdOut = [⟨.suppressed, 0#8, none⟩] ∧
    (after .protTake { ref with stagedValid := true, cmdDisabled := true,
                                staged := ⟨0x10#8, 5#8, 6#8, 7#8, 0#8, none⟩ }).rsp = 0xC010#16 := by decide
/-- R134. -/
theorem test_setgate : (after (.protSetgate true) ref).statusWord = 0x0080#16 := by decide
/-- EV1. -/
theorem test_encode_serializes :
    serialize Config.ref sampleS =
      [0xC8#8, 0x00#8, 0x40#8, 0x41#8, 0x42#8, 0x10#8, 0x05#8, 0x20#8, 0x30#8, 0x11#8, 0xFB#8, 0x21#8, 0x31#8,
       0x12#8, 0x00#8, 0x22#8, 0x32#8, 0x00#8, 0x01#8, 0xFF#8, 0xFF#8, 0x12#8, 0x34#8, 0xFF#8, 0x00#8, 0x00#8,
       0x00#8, 0x00#8, 0xFF#8, 0xFF#8, 0xFE#8, 0x07#8, 0x08#8, 0x09#8, 0xDE#8, 0xAD#8, 0xBE#8, 0xEF#8, 0x01#8,
       0x80#8] := by decide +kernel
theorem test_encode : (after .protEncode (sampled ref)).crc = 0xBC4A#16 ∧
    (after .protEncode (sampled ref)).rsp = 46#16 := by decide +kernel
/-- EV5. -/
theorem test_txdone : (after .protTxdone { ref with txBusy := true }).txBusy = false := by decide
/-- SY1. -/
theorem test_nop : (after .sysNop { ref with rsp := 7#16 }).rsp = 7#16 := by decide
/-- SY3, and the corner case 0x0520 of R201. -/
theorem test_status :
    (after .sysStatus { ref with pstate := .motorData, cmdDisabled := true }).rsp = 0x0480#16 ∧
    (after .sysStatus { ref with pstate := .ledData, stagedValid := true }).rsp = 0x0520#16 := by decide
/-- R160: the operand of word 0x80CE. -/
theorem test_setsp : (after (.motSetsp .m0 0xCE#8) ref).motor0.setpoint.toInt = -50 := by decide
/-- R161: word 0x9101. -/
theorem test_setlaw : (after (.motSetlaw .m1 .pd) ref).motor1.law = .pd ∧
    (after (.motSetlaw .m1 .pd) ref).motor0.law = .direct := by decide
/-- The example of R175, and the ARITH_RANGE vector. -/
theorem test_tick :
    let u := (after (.motTick .m0) (onPorts (withUnit { aimed 20 with law := .pd }) 100#16 0#16 1000#16)).motor0
    u.v = 7 ∧ u.dutyA = 0 ∧ u.lastDirection = .positive ∧ u.acc = 480 := by decide +kernel
theorem test_tick_arith_range :
    let s : State := { under { Config.ref with kp := 1073741824 } with
      motor0 := { aimed 20 with law := .pd, dutyA := 20, lastDirection := .positive, v := 20 } }
    (after (.motTick .m0) s).statusWord = 0x0004#16 ∧ (after (.motTick .m0) s).motor0.dutyA = 0 := by decide +kernel
/-- R167: -128 is clamped. -/
theorem test_direct : (after (.motDirect .m0) (withUnit (aimed (-128)))).motor0.v = -127 := by decide
/-- PD2, PD7. -/
theorem test_pd :
    let u := (after (.motPd .m0) (onPorts (withUnit { aimed 10 with acc := 240, lastError := 40 }) 0#16 20#16 0#16)).motor0
    u.acc = 280 ∧ u.v = 4 ∧ u.lastError = 20 := by decide +kernel
theorem test_pd_rounds_down :
    (after (.motPd .m0) (onPorts (withUnit (aimed (-1))) 0#16 0#16 0#16)).motor0.v = -1 := by decide +kernel
/-- PI2, PI10. -/
theorem test_pid :
    let u := (after (.motPid .m0)
      (onPorts (withUnit { aimed 10 with acc := 280, integralError := 40, lastError := 40 }) 0#16 20#16 0#16)).motor0
    u.integralError = 59 ∧ u.acc = 99 ∧ u.v = 1 := by decide +kernel
theorem test_pid_leak_truncates :
    (after (.motPid .m0)
      (onPorts (withUnit { aimed 5 with integralError := -65, lastError := 20 }) 0#16 20#16 0#16)).motor0.integralError
      = -63 := by decide +kernel
/-- CL5, CL6. -/
theorem test_clim :
    let u := (after (.motClim .m0) (onPorts (withUnit { aimed 0 with v := 100, correction := -800 }) 300#16 0#16 0#16)).motor0
    u.correction = -600 ∧ u.v = 63 := by decide +kernel
theorem test_clim_negative :
    (after (.motClim .m0)
      (onPorts (withUnit { aimed 0 with v := -60 }) 600#16 0#16 0#16)).motor0.v = -54 := by decide +kernel
/-- PL1: not above the threshold; PL4: trip. -/
theorem test_plim_threshold :
    let u : MotorUnit := { aimed 0 with v := 50, ring := Vector.replicate 100 40#16 }
    let t := (after (.motPlim .m0) (onPorts (withUnit u) 40#16 0#16 1000#16)).motor0
    t.v = 50 ∧ t.decayCounter = 0 ∧ t.ringIdx = 1 := by decide +kernel
theorem test_plim_trip :
    let t := (after (.motPlim .m0) (onPorts (withUnit { aimed 0 with v := 50 }) 5000#16 0#16 900#16)).motor0
    t.v = 0 ∧ t.decayCounter = 5 := by decide +kernel
/-- R174: the reversal from +50 to -30, its dead tick and the tick after it. -/
theorem test_act_dead_tick :
    let t := (after (.motAct .m0) (withUnit { aimed 0 with v := -30, lastDirection := .positive, dutyA := 50 })).motor0
    t.dutyA = 0 ∧ t.dutyB = 0 ∧ t.lastDirection = .negative := by decide
theorem test_act_drives :
    (after (.motAct .m0) (withUnit { aimed 0 with v := -30, lastDirection := .negative })).motor0.dutyB = 30 := by decide

/-- SY5: a reserved word. -/
theorem test_reserved_word :
    (match step (issued ref 0x3000#16) with | .next t => t.statusWord | _ => 0xFFFF#16) = 0x0001#16 := by decide
/-- `State.withFetchWord` puts a word where the next step takes it. -/
theorem test_fetch_word :
    (match step (ref.withFetchWord 16 0x1301) with | .next t => t.cmdDisabled | _ => false) = true := by decide

/-! ### Witnesses: states and operands that meet the hypotheses of a statement, all together -/

theorem witness_DecodedWordIsItsEncoding : decode 0x80CE#16 = .ok (.motSetsp .m0 0xCE#8) := by decide

theorem witness_StepRunsDecodedOperation :
    (issued ref 0x1301#16).pending = .command ⟨.tick, 0x1301#16, ref.ports⟩ :: [] ∧
    decode 0x1301#16 = .ok (.protSetgate true) := ⟨rfl, by decide⟩

theorem witness_ReservedWordSetsIllegalCmdOnly :
    (issued ref 0x8103#16).pending = .command ⟨.tick, 0x8103#16, ref.ports⟩ :: [] ∧ isReserved 0x8103#16 = true :=
  ⟨rfl, by decide⟩

theorem witness_ResetEventRestoresEveryElement :
    ({ ref with crc := 1#16, pending := [.reset, .reset] } : State).pending = .reset :: [.reset] := rfl

theorem witness_IdleStepKeepsState : ref.pending = [] := rfl

/-- One command of each agent, by the rule of use. -/
theorem witness_AgentsKeepToTheirElements :
    ∀ c ∈ [(⟨.receive, 0x1100#16, ref.ports⟩ : Issue), ⟨.transport, 0x1500#16, ref.ports⟩, ⟨.tick, 0x8200#16, ref.ports⟩],
      ({ ref with pending := [.command c] } : State).pending = .command c :: [] ∧
      (PortEvent.command c).followsRule = true ∧ ∃ t, step { ref with pending := [.command c] } = .next t := by
  intro c hc
  simp only [List.mem_cons, List.not_mem_nil, or_false] at hc
  rcases hc with rfl | rfl | rfl <;> exact ⟨rfl, by decide, _, rfl⟩

theorem witness_EncodeBuildsFrameUnlessBusy :
    ∃ (body : List Byte) (crc : Word), body = Config.ref.tlmHdr.toList ++ serialize Config.ref sampleS ∧
      crc = crcSeq ref.crcTable Config.ref.crcInit body ∧ (sampled ref).txBusy = false ∧
      ({ sampled ref with txBusy := true } : State).txBusy = true := ⟨_, _, rfl, rfl, rfl, rfl⟩

theorem witness_SerializeKeepsGroupOrder : sampleS.Fits Config.ref.tlmLayout := by
  refine ⟨?_, ?_, ?_, ?_, ?_, ?_, ?_, ?_, ?_, ?_, ?_, ?_, ?_⟩
  case refine_4 =>
    intro m
    cases m <;> simp [MotorSample.Fits, elementsInRange, TelemetrySample.motor, sampleS, Config.ref, TlmLayout.ref]
  all_goals simp [groupFits, elementsInRange, sampleS, Config.ref, TlmLayout.ref]

theorem witness_SendBufferKeptWhileBusy :
    ∃ t, step (issued { ref with txBusy := true } 0x1400#16) = .next t ∧
      (issued { ref with txBusy := true } 0x1400#16).txBusy = true ∧
      (issued { ref with txBusy := true } 0x1400#16).pending.head? ≠ some .reset := ⟨_, rfl, rfl, by simp [issued]⟩

/-- 63 bytes have room under a capacity of 64, 64 have none. -/
theorem witness_RxpushAppendsOrOverflows :
    (List.replicate 63 0#8 : List Byte).length < Config.ref.rxBufCap ∧
    Config.ref.rxBufCap ≤ (List.replicate 64 0#8 : List Byte).length := by decide

theorem witness_HeaderByteAdvancesOrResyncs :
    (PState.header4, (0x3C#8 : Byte), PState.motorData) ∈ [(PState.header1, Config.ref.cmdHdr.b0, PState.header2),
      (.header2, Config.ref.cmdHdr.b1, .header3), (.header3, Config.ref.cmdHdr.b2, .header4),
      (.header4, Config.ref.cmdHdr.b3, .motorData)] ∧
    ({ ref with pstate := .header4, rxFifo := [0xAA#8] } : State).pstate = .header4 ∧
    ({ ref with pstate := .header4, rxFifo := [0xAA#8] } : State).rxFifo = [0xAA#8] ∧ 1 ≤ Config.ref.decodeBound := by
  decide

/-- A byte that is not LED_CUSTOM; LED_CUSTOM with 48 bytes after it under a DECODE_BOUND of 53; LED_CUSTOM with 47
bytes after it, and with 48 under a DECODE_BOUND of 52. -/
theorem witness_MotorDataStagesOrAwaitsLeds :
    let field (d4 : Byte) (n bound : Nat) : State := { under { Config.ref with decodeBound := bound } with
      pstate := .motorData, rxFifo := 2#8 :: 3#8 :: 4#8 :: 5#8 :: d4 :: List.replicate n 9#8 }
    (∀ d4 ∈ [(0#8 : Byte), 1#8], ∀ n ∈ [0, 47, 48], ∀ bound ∈ [5, 52, 53],
      (field d4 n bound).pstate = .motorData ∧
      (field d4 n bound).rxFifo = 2#8 :: 3#8 :: 4#8 :: 5#8 :: d4 :: List.replicate n 9#8 ∧
      5 ≤ (field d4 n bound).cfg.decodeBound) ∧
    (0#8 : Byte) ≠ (field 0#8 0 5).cfg.ledCustom ∧
    ((1#8 : Byte) = (field 1#8 48 53).cfg.ledCustom ∧ 48 ≤ (List.replicate 48 (9#8 : Byte)).length ∧
      53 ≤ (field 1#8 48 53).cfg.decodeBound) ∧
    ((1#8 : Byte) = (field 1#8 47 53).cfg.ledCustom ∧ (List.replicate 47 (9#8 : Byte)).length < 48) ∧
    ((1#8 : Byte) = (field 1#8 48 52).cfg.ledCustom ∧ (field 1#8 48 52).cfg.decodeBound < 53) := by decide

theorem witness_LedDataStagesTriples :
    let s : State := { under { Config.ref with decodeBound := 48 } with pstate := .ledData, rxFifo := List.replicate 48 7#8 }
    s.pstate = .ledData ∧ 48 ≤ s.rxFifo.length ∧ 48 ≤ s.cfg.decodeBound := by decide

/-- No byte; four bytes in MOTORDATA; 47 bytes in LEDDATA. -/
theorem witness_DecodeWaitsForWholeField :
    ref.rxFifo = [] ∧
    (let s : State := { ref with pstate := .motorData, rxFifo := List.replicate 4 0#8 }
     s.pstate = .motorData ∧ s.rxFifo.length < 5) ∧
    (let s : State := { ref with pstate := .ledData, rxFifo := List.replicate 47 0#8 }
     s.pstate = .ledData ∧ s.rxFifo.length < 48) := by decide

theorem witness_DecodeEndsAtFrameOrShortage : ref.cfg.decodeBound ≤ 32767 := by decide

/-- Frame F1 of section 3.3. -/
def frameF1 : CommandFrame := ⟨0x01#8, 0x32#8, 0xCE#8, 0x00#8, 0x00#8, none⟩

/-- PV3: noise 00 13 AA 77, then F1, then one byte more. -/
theorem witness_ParserResynchronisesAfterNoise :
    let noise : List Byte := [0x00#8, 0x13#8, 0xAA#8, 0x77#8]
    let s : State := { ref with rxFifo := noise ++ frameF1.bytes Config.ref ++ [0x55#8] }
    s.cfg.Wf ∧ frameF1.Wf s.cfg ∧ s.rxFifo = noise ++ frameF1.bytes s.cfg ++ [0x55#8] ∧
    scanHeader s.cfg s.pstate noise = some .header1 ∧
    noise.length + (frameF1.bytes s.cfg).length ≤ s.cfg.decodeBound := by
  refine ⟨Config.ref_wf, ?_, rfl, by decide, by decide⟩
  simp [CommandFrame.Wf, frameF1, ref, State.resetWith, Config.ref]

theorem witness_HeaderFreeNoiseEndsInHeader1 :
    let noise : List Byte := [0x00#8, 0x13#8, 0xAA#8, 0x77#8]
    Config.ref.resyncRecheck = false ∧ ¬ Config.ref.cmdHdr.toList <:+: noise ∧
    ∀ k, 1 ≤ k → k ≤ 3 → ¬ Config.ref.cmdHdr.toList.take k <:+ noise := by
  refine ⟨rfl, by decide, fun k h1 h3 => ?_⟩
  interval_cases k <;> decide

/-- DECODE_BOUND 48 is less than the 57 bytes of a frame with led data. -/
theorem witness_RepeatedDecodeReachesFrame :
    let c : Config := { Config.ref with decodeBound := 48 }
    let f : CommandFrame := ⟨2#8, 3#8, 4#8, 5#8, 1#8, some (List.replicate 16 ⟨1#8, 2#8, 3#8⟩)⟩
    let s : State := { under c with rxFifo := [0x00#8] ++ f.bytes c ++ [] }
    s.cfg.Wf ∧ f.Wf s.cfg ∧ s.rxFifo = [0x00#8] ++ f.bytes s.cfg ++ [] ∧
    scanHeader s.cfg s.pstate [0x00#8] = some .header1 := by
  refine ⟨by decide, ?_, rfl, by decide⟩
  simp [CommandFrame.Wf, under, Config.ref]

/-- None staged; staged and enabled; staged, disabled and an enable code; staged, disabled and another code. -/
theorem witness_TakeForwardsThroughGate :
    ref.stagedValid = false ∧
    (let s : State := { ref with stagedValid := true }
     s.stagedValid = true ∧ s.cmdDisabled = false) ∧
    (let s : State := { ref with stagedValid := true, cmdDisabled := true, staged := ⟨0x14#8, 1#8, 2#8, 3#8, 0#8, none⟩ }
     s.stagedValid = true ∧ s.staged.motorMode ∈ [s.cfg.modeEnCharging, s.cfg.modeEnVref, s.cfg.modeEnAmp]) ∧
    (let s : State := { ref with stagedValid := true, cmdDisabled := true, staged := ⟨0x15#8, 1#8, 2#8, 3#8, 0#8, none⟩ }
     s.stagedValid = true ∧ s.cmdDisabled = true ∧
       s.staged.motorMode ∉ [s.cfg.modeEnCharging, s.cfg.modeEnVref, s.cfg.modeEnAmp]) := by decide

/-- PD5: setpoint 100, the greatest that is not neutral. -/
theorem witness_PdAccumulatesAndShifts :
    let s := onPorts (withUnit (aimed 100)) 0#16 (BitVec.ofInt 16 (-1000)) 0#16
    ∃ (u : MotorUnit) (clk : Word) (e a : Int), u = s.motor .m0 ∧ clk = (s.ports.motor .m0).measClicks ∧
      e = u.setpoint.toInt * 4 - clk.toInt ∧
      a = max (-8128) (min 8128 (u.acc + e * s.cfg.kp + (e - u.lastError) * s.cfg.kd)) ∧
      u.setpoint.toInt ≠ 0 ∧ -100 ≤ u.setpoint.toInt ∧ u.setpoint.toInt ≤ 100 ∧ PdChecks s.cfg u clk :=
  ⟨_, _, _, _, rfl, rfl, rfl, rfl, by decide, by decide, by decide, by unfold PdChecks; decide⟩

/-- Setpoint -100, the least that is not neutral. -/
theorem witness_PidLeaksAndCombines :
    let s := onPorts (withUnit { aimed (-100) with integralError := -65 }) 0#16 7#16 0#16
    ∃ (u : MotorUnit) (clk : Word) (e ig a : Int), u = s.motor .m0 ∧ clk = (s.ports.motor .m0).measClicks ∧
      e = u.setpoint.toInt * 4 - clk.toInt ∧ ig = (u.integralError * 63).tdiv 64 + e ∧
      a = max (-8128) (min 8128 (e * s.cfg.kps + ig * s.cfg.kis + (e - u.lastError) * s.cfg.kds)) ∧
      u.setpoint.toInt ≠ 0 ∧ -100 ≤ u.setpoint.toInt ∧ u.setpoint.toInt ≤ 100 ∧ PidChecks s.cfg u clk :=
  ⟨_, _, _, _, _, rfl, rfl, rfl, rfl, rfl, by decide, by decide, by decide, by unfold PidChecks; decide⟩

/-- The other clauses of the PD and PID statements: a neutral setpoint, and a check that fails at setpoint 1 under gains
of 2^30. -/
theorem witness_law_step_other_clauses :
    let big : Config := { Config.ref with kp := 1073741824, kps := 1073741824 }
    (100 < ((withUnit (aimed 101)).motor .m0).setpoint.toInt) ∧
    (let u := aimed 1
     u.setpoint.toInt ≠ 0 ∧ -100 ≤ u.setpoint.toInt ∧ u.setpoint.toInt ≤ 100 ∧ ¬ PdChecks big u 0#16 ∧
       ¬ PidChecks big u 0#16) := by
  unfold PdChecks PidChecks; decide

/-- 0, 101, -101 and -128. -/
theorem witness_NeutralSetpointGivesZero :
    ∀ sp ∈ [(0 : Int), 101, -101, -128],
      ((withUnit (aimed sp)).motor .m0).setpoint.toInt = 0 ∨ 100 < ((withUnit (aimed sp)).motor .m0).setpoint.toInt ∨
        ((withUnit (aimed sp)).motor .m0).setpoint.toInt < -100 := by decide

/-- A setpoint that is not neutral under gains of 2^30: PD and PID out of range; a correction near the range's end:
CLIM, and the tick with a law stage that answers. -/
theorem witness_RangeFaultForcesUnitSafe :
    let big : Config := { Config.ref with kp := 1073741824, kps := 1073741824 }
    (let u : MotorUnit := { aimed 20 with law := .pd }
     u.setpoint.toInt ≠ 0 ∧ -100 ≤ u.setpoint.toInt ∧ u.setpoint.toInt ≤ 100 ∧ ¬ PdChecks big u 0#16 ∧
       ¬ PidChecks big { u with law := .pid } 0#16 ∧ u.law = .pd) ∧
    (let u : MotorUnit := { MotorUnit.reset with correction := -2147483648 }
     ¬ ClimChecks Config.ref u u.v 501#16 ∧
       ∃ (u1 : MotorUnit) (x : Int), u.lawStep Config.ref 0#16 = some (u1, x) ∧ ¬ ClimChecks Config.ref u x 501#16) := by
  refine ⟨?_, ?_, _, _, rfl, ?_⟩
  · unfold PdChecks PidChecks; decide
  · unfold ClimChecks; decide
  · unfold ClimChecks; decide

/-- The other clause of the current limiter's statement: the sum before the clamp is one below -2^31. -/
theorem witness_ClimFoldsCorrection_fails :
    ¬ ClimChecks Config.ref { MotorUnit.reset with correction := -2147483648 } 0 501#16 := by
  unfold ClimChecks; decide

theorem witness_ClimFoldsCorrection :
    let s := onPorts (withUnit { aimed 0 with v := 100, correction := -800 }) 300#16 0#16 0#16
    ∃ (u : MotorUnit) (cur : Word) (k : Int), u = s.motor .m0 ∧ cur = (s.ports.motor .m0).measCurrent ∧
      k = max (-(|u.v| * (s.cfg.clFactor : Int))) (min 0 (u.correction + ((s.cfg.iLimit : Int) - (cur.toNat : Int)))) ∧
      ClimChecks s.cfg u u.v cur := ⟨_, _, _, rfl, rfl, rfl, by unfold ClimChecks; decide⟩

/-- CL_FACTOR = I_LIMIT_SCALE and v = -127. -/
theorem witness_ClimNeverGrowsOrReverses :
    let s := onPorts (withUnit { aimed 0 with v := -127 }) 65535#16 0#16 0#16
    s.cfg.clFactor ≤ s.cfg.iLimitScale ∧ -127 ≤ (s.motor .m0).v ∧ (s.motor .m0).v ≤ 127 ∧
      ClimChecks s.cfg (s.motor .m0) (s.motor .m0).v (s.ports.motor .m0).measCurrent ∧
      ∃ t, exec (.motClim .m0) s = .next t :=
  ⟨by decide, by decide, by decide, by unfold ClimChecks; decide, _, rfl⟩

theorem witness_PlimTripsDecaysOrPasses :
    let s := onPorts (withUnit { aimed 0 with v := 50 }) 5000#16 0#16 900#16
    ∃ (u : MotorUnit) (p : MotorPorts) (est : Nat), u = s.motor .m0 ∧ p = s.ports.motor .m0 ∧
      est = ((u.ring.toList.map BitVec.toNat).sum - (u.ring.toList.getD u.ringIdx.val 0#16).toNat + p.measCurrent.toNat)
        / 100 * p.busVoltage.toNat := ⟨_, _, _, rfl, rfl, rfl⟩

theorem wellChosen_ref : Config.ref.WellChosen := by constructor <;> decide

theorem motorInv_reset : MotorInv Config.ref MotorUnit.reset := by constructor <;> decide

/-- Whether an outcome is a next state. -/
def completes : Host.Outcome State Fault Refusal → Bool
  | .next _ => true
  | .fault _ => false
  | .refused _ => false

theorem next_of_completes {o : Host.Outcome State Fault Refusal} (h : completes o = true) : ∃ t, o = .next t := by
  cases o with
  | next t => exact ⟨t, rfl⟩
  | fault _ => cases h
  | refused _ => cases h

/-- A trip, then DECAY_MAX = 5 ticks of the unit with another unit's tick and a protocol operation in between. -/
theorem witness_PowerTripHoldsZeroForDecayWindow :
    let high : InPorts := { ref.ports with motor1 := ⟨5000#16, 0#16, 900#16⟩ }
    let c : Issue := ⟨.tick, 0x9200#16, high⟩
    let calls : List Issue :=
      [⟨.tick, 0x9200#16, ref.ports⟩, ⟨.tick, 0x8200#16, ref.ports⟩, ⟨.tick, 0x9200#16, high⟩,
       ⟨.tick, 0x1100#16, ref.ports⟩, ⟨.tick, 0x9200#16, ref.ports⟩, ⟨.tick, 0x9200#16, ref.ports⟩,
       ⟨.tick, 0x9200#16, ref.ports⟩]
    let s : State := { ref with pending := .command c :: (calls.map .command ++ []) }
    s.cfg.WellChosen ∧ MotorInv s.cfg (s.motor .m1) ∧ s.pending = .command c :: (calls.map .command ++ []) ∧
    decode c.word = .ok (.motTick .m1) ∧
    4 * s.cfg.pNominal < (s.motor .m1).powerEstimate (c.ports.motor .m1).measCurrent (c.ports.motor .m1).busVoltage ∧
    (∀ d ∈ calls, ∃ i, decode d.word = .ok i ∧ (i = .motTick .m1 ∨ operationUnit i ≠ some .m1)) ∧
    (calls.filter fun d => decide (d.word = encode (.motTick .m1))).length ≤ s.cfg.decayMax ∧
    ∃ t, Host.Core.run Sys2Proof.core (calls.length + 1) s = .next t := by
  refine ⟨wellChosen_ref, motorInv_reset, rfl, by decide, by decide +kernel, ?_, by decide, next_of_completes (by decide +kernel)⟩
  intro d hd
  simp only [List.mem_cons, List.not_mem_nil, or_false] at hd
  rcases hd with rfl | rfl | rfl | rfl | rfl | rfl | rfl
  · exact ⟨.motTick .m1, by decide, .inl rfl⟩
  · exact ⟨.motTick .m0, by decide, .inr (by decide)⟩
  · exact ⟨.motTick .m1, by decide, .inl rfl⟩
  · exact ⟨.protDecode, by decide, .inr (by decide)⟩
  · exact ⟨.motTick .m1, by decide, .inl rfl⟩
  · exact ⟨.motTick .m1, by decide, .inl rfl⟩
  · exact ⟨.motTick .m1, by decide, .inl rfl⟩

theorem witness_ActDrivesOneChannelAfterDeadTick :
    let s := withUnit { aimed 0 with v := -128 }
    ∃ (u : MotorUnit) (w : Int) (d : Direction), u = s.motor .m0 ∧ w = max (-127) (min 127 u.v) ∧ d.toInt = w.sign :=
  ⟨_, _, .negative, rfl, rfl, by decide⟩

/-- Unit 0 aimed under a law, in the reference configuration with a KP, before a tick. -/
def tickOf (kp : Int) (law : Law) (sp : Int) (clk : Word) : State :=
  onPorts { under { Config.ref with kp := kp } with motor0 := { aimed sp with law := law } } 600#16 clk 0#16

/-- DIRECT under a KP of 2^30; PD under it with an error of 0; PD under it with a neutral setpoint; PID. -/
theorem witness_TickIsItsFourStages :
    ∀ s ∈ [tickOf 1073741824 .direct 20 7#16, tickOf 1073741824 .pd 20 80#16, tickOf 1073741824 .pd 101 7#16,
      tickOf 4 .pid (-100) 7#16], TickChecks s.cfg (s.motor .m0) (s.ports.motor .m0) := by
  intro s hs
  simp only [List.mem_cons, List.not_mem_nil, or_false] at hs
  rcases hs with rfl | rfl | rfl | rfl
  · exact ⟨trivial, by unfold ClimChecks; decide⟩
  · exact ⟨Or.inr (by unfold PdChecks; decide), by unfold ClimChecks; decide⟩
  · exact ⟨Or.inl (by decide), by unfold ClimChecks; decide⟩
  · exact ⟨Or.inr (by unfold PidChecks; decide), by unfold ClimChecks; decide⟩

theorem witness_StatusAnswersEveryFlag :
    (({ ref with pstate := .ledData } : State).pstate, 5) ∈
      [(PState.header1, 0), (.header2, 1), (.header3, 2), (.header4, 3), (.motorData, 4), (.ledData, 5)] := by decide

/-- An operation of unit 1, and one of no unit. -/
theorem witness_OperationsKeepToTheirUnit :
    (∃ t, exec (.motSetsp .m1 5#8) ref = .next t ∧ operationUnit (.motSetsp .m1 5#8) = some .m1) ∧
    ∃ t, exec .crcInit ref = .next t ∧ operationUnit .crcInit = none := ⟨⟨_, rfl, rfl⟩, _, rfl, rfl⟩

/-- Two states that differ in crc and in another unit. -/
theorem witness_UnitResultIndependentOfRest :
    let s' : State := { ref with crc := 9#16, motor0 := aimed 7 }
    operationUnit (.motDirect .m1) = some .m1 ∧ ref.cfg = s'.cfg ∧ ref.motor .m1 = s'.motor .m1 ∧
    ref.ports.motor .m1 = s'.ports.motor .m1 ∧ (∃ t, exec (.motDirect .m1) ref = .next t) ∧
    ∃ t', exec (.motDirect .m1) s' = .next t' := ⟨rfl, rfl, rfl, rfl, ⟨_, rfl⟩, _, rfl⟩

theorem witness_StickyBitsStayUntilReset :
    let s := issued { ref with rxOverflow := true } 0x2100#16
    ∃ t, step s = .next t ∧ s.pending.head? ≠ some .reset ∧ s.faultBit .rxOverflow = true :=
  ⟨_, rfl, by simp [issued], rfl⟩

theorem witness_BlockRegistersHaveNamedWriters : ∃ t, exec .protTake { ref with stagedValid := true } = .next t :=
  ⟨_, rfl⟩

theorem witness_UnitRegistersHaveNamedWriters :
    ∃ (t : State) (u u' : MotorUnit), exec (.motAct .m0) ref = .next t ∧ u = ref.motor .m0 ∧ u' = t.motor .m0 :=
  ⟨_, _, _, rfl, rfl, rfl⟩

theorem inv_issued (w : Word) : (issued ref w).Inv where
  motors m := by cases m <;> exact motorInv_reset
  prot := ⟨Nat.zero_le _, by simp [issued, ref, State.resetWith], by simp [issued, ref, State.resetWith]⟩
  tx := ⟨by simp [issued, ref, State.resetWith], by simp [issued, ref, State.resetWith]⟩

theorem witness_StepKeepsInvariant : (issued ref 0x1400#16).Inv ∧ ∃ t, step (issued ref 0x1400#16) = .next t :=
  ⟨inv_issued _, _, rfl⟩

theorem witness_WellChosenGainsNeverFault :
    let s : State := { issued ref 0x8200#16 with motor0 := { MotorUnit.reset with arithRange := true } }
    s.cfg.WellChosen ∧ s.Inv ∧ ∃ t, step s = .next t ∧ (t.motor .m0).arithRange = true := by
  refine ⟨wellChosen_ref, ?_, _, rfl, by decide +kernel⟩
  refine ⟨fun m => ?_, ⟨Nat.zero_le _, by simp [issued, ref, State.resetWith], by simp [issued, ref, State.resetWith]⟩,
    ⟨by simp [issued, ref, State.resetWith], by simp [issued, ref, State.resetWith]⟩⟩
  cases m
  · constructor <;> decide
  · exact motorInv_reset
  · exact motorInv_reset

/-- A unit whose direction is positive and one whose direction is negative. -/
theorem witness_ReversalCostsDeadTick :
    ∀ d : Direction, ∃ s : State, s.Inv ∧ (∃ t, step s = .next t) ∧ (s.motor .m0).lastDirection = d := by
  intro d
  refine ⟨{ issued ref 0x8200#16 with motor0 := { MotorUnit.reset with lastDirection := d, v := 5 } }, ?_, ⟨_, rfl⟩, rfl⟩
  refine ⟨fun m => ?_, ⟨Nat.zero_le _, by simp [issued, ref, State.resetWith], by simp [issued, ref, State.resetWith]⟩,
    ⟨by simp [issued, ref, State.resetWith], by simp [issued, ref, State.resetWith]⟩⟩
  cases m
  · cases d <;> constructor <;> decide
  · exact motorInv_reset
  · exact motorInv_reset

end Sys2Proof.Tests
end

section
/-! PROOFS. What one operation does to the motor-loop units, said once (`exec_of_operationUnit`, `motor_of_exec`), when a
checked stage answers none, and from these: each operation keeps to its unit (R2, R224), a failed check forces the unit
safe (R212), and well-chosen gains never fault (R15). Last, the state after power-on (R231). -/

namespace Sys2Proof.Machine

variable {c : Config} {p : MotorPorts} {u u' : MotorUnit} {i : Instr} {m : Motor} {s t : State}

/-! ### The effect of an operation on a unit -/

/-- What an operation makes of the motor-loop unit it acts on; none when a check fails (R212). An operation of another
unit of the block leaves it as it is. -/
def MotorUnit.operation (c : Config) (p : MotorPorts) (i : Instr) (u : MotorUnit) : Option MotorUnit :=
  match i with
  | .motSetsp _ sp => some { u with setpoint := sp }
  | .motSetlaw _ law => some { u with law := law }
  | .motTick _ => u.opTick c p
  | .motDirect _ => some { u with v := u.directDuty }
  | .motPd _ => u.opPd c p
  | .motPid _ => u.opPid c p
  | .motClim _ => u.opClim c p
  | .motPlim _ => some (u.opPlim c p)
  | .motAct _ => some (u.actStep c u.v)
  | _ => some u

/-- A motor-loop operation is its effect on its own unit, run with the checks of R212. -/
theorem exec_of_operationUnit (h : operationUnit i = some m) :
    exec i s = .next (s.runMotor m (MotorUnit.operation s.cfg (s.ports.motor m) i)) := by
  cases i <;> cases h <;> rfl

/-- An operation of the CRC or protocol unit or of the system leaves all three motor-loop units as they are. -/
theorem motor_of_operationUnit_eq_none (h : operationUnit i = none) (he : exec i s = .next t) (m : Motor) :
    t.motor m = s.motor m := by
  cases i with
  | motSetsp | motSetlaw | motTick | motDirect | motPd | motPid | motClim | motPlim | motAct => cases h
  | crcInit | crcUpdate | protSetgate | protTxdone => cases he; cases m <;> rfl
  | sysNop => cases he; rfl
  | crcRead | sysStatus => cases he; exact respond_motor s _ m
  | protDecode => cases he; exact afterDecode_motor s _ m
  | protRxpush b =>
    cases he
    split
    · exact pushRx_motor s b m
    · cases m <;> rfl
  | protTake =>
    cases he
    split
    · rw [respond_motor, emit_motor]; cases m <;> rfl
    · exact respond_motor s _ m
  | protEncode =>
    cases he
    split
    · exact respond_motor s _ m
    · exact buildFrame_motor s m

/-- Everything an operation can do to unit m: its own effect or the forced-safe outcome of R212, or nothing. -/
theorem motor_of_exec (he : exec i s = .next t) (m : Motor) :
    (operationUnit i = some m ∧ t.motor m =
      ((s.motor m).operation s.cfg (s.ports.motor m) i).getD (s.motor m).forceSafe) ∨
    (operationUnit i ≠ some m ∧ t.motor m = s.motor m) := by
  cases hi : operationUnit i with
  | none => exact .inr ⟨nofun, motor_of_operationUnit_eq_none hi he m⟩
  | some m' =>
    rw [exec_of_operationUnit hi, runMotor_eq_setMotor] at he
    cases he
    by_cases hm : m = m'
    · subst hm; exact .inl ⟨rfl, setMotor_motor_same s m _⟩
    · exact .inr ⟨fun h => hm (Option.some.inj h).symm, by rw [setMotor_motor, if_neg hm]⟩

/-! ### When a checked stage answers none -/

theorem pdStep_eq_none_iff {clk : Word} :
    u.pdStep c clk = none ↔ ¬ Neutral (sext8 u.setpoint) ∧ ¬ PdChecks c u clk := by
  rcases pdStep_cases c u clk with ⟨hn, h⟩ | ⟨_, hc, h⟩ | ⟨hn, hc, h⟩ <;> simp [*]

theorem pidStep_eq_none_iff {clk : Word} :
    u.pidStep c clk = none ↔ ¬ Neutral (sext8 u.setpoint) ∧ ¬ PidChecks c u clk := by
  rcases pidStep_cases c u clk with ⟨hn, h⟩ | ⟨_, hc, h⟩ | ⟨hn, hc, h⟩ <;> simp [*]

theorem climStep_eq_none_iff {x : Int} {cur : Word} : u.climStep c x cur = none ↔ ¬ ClimChecks c u x cur := by
  rcases climStep_cases c u x cur with ⟨hc, h⟩ | ⟨hc, h⟩ <;> simp [*]

theorem opPd_eq_none_iff :
    u.opPd c p = none ↔ ¬ Neutral (sext8 u.setpoint) ∧ ¬ PdChecks c u p.measClicks := by
  rw [MotorUnit.opPd, Option.map_eq_none_iff, pdStep_eq_none_iff]

theorem opPid_eq_none_iff :
    u.opPid c p = none ↔ ¬ Neutral (sext8 u.setpoint) ∧ ¬ PidChecks c u p.measClicks := by
  rw [MotorUnit.opPid, Option.map_eq_none_iff, pidStep_eq_none_iff]

theorem opClim_eq_none_iff : u.opClim c p = none ↔ ¬ ClimChecks c u u.v p.measCurrent := by
  rw [MotorUnit.opClim, Option.map_eq_none_iff, climStep_eq_none_iff]

/-- The law stage leaves correction, so the current limiter's checks read the unit as the tick found it. -/
theorem climChecks_of_lawStep {clk cur : Word} {x y : Int} (h : u.lawStep c clk = some (u', x)) :
    ClimChecks c u' y cur ↔ ClimChecks c u y cur := by
  rw [lawStep_frame h]; rfl

/-- A tick is abandoned in its law stage or in its current limiter, the two stages with checks (R175, R212). -/
theorem opTick_eq_none_iff :
    u.opTick c p = none ↔ u.lawStep c p.measClicks = none ∨
      ∃ u1 x, u.lawStep c p.measClicks = some (u1, x) ∧ ¬ ClimChecks c u x p.measCurrent := by
  rcases opTick_cases c p u with ⟨u1, x1, u2, x2, hl, hc, h⟩ | ⟨hl, h⟩ | ⟨u1, x1, hl, hc, h⟩
  · have hok : ClimChecks c u x1 p.measCurrent := by
      by_contra hno
      rw [← climChecks_of_lawStep hl, ← climStep_eq_none_iff, hc] at hno
      cases hno
    simp [h, hl, hok]
  · simp [h, hl]
  · rw [climStep_eq_none_iff, climChecks_of_lawStep hl] at hc
    simp [h, hl, hc]

theorem lawStep_of_pd {clk : Word} (h : u.law = .pd) : u.lawStep c clk = u.pdStep c clk := by
  rw [MotorUnit.lawStep, h]

theorem lawStep_of_pid {clk : Word} (h : u.law = .pid) : u.lawStep c clk = u.pidStep c clk := by
  rw [MotorUnit.lawStep, h]

/-- A motor-loop operation whose check fails raises ARITH_RANGE[m], forces unit m safe and does nothing else (R212). -/
theorem exec_of_operation_eq_none (hi : operationUnit i = some m)
    (h : (s.motor m).operation s.cfg (s.ports.motor m) i = none) :
    exec i s = .next (s.setMotor m (s.motor m).forceSafe) := by
  rw [exec_of_operationUnit hi, runMotor_of_none s h]

/-! ### No stage writes ARITH_RANGE -/

theorem neutralStep_arithRange : (u.neutralStep c).arithRange = u.arithRange := by
  unfold MotorUnit.neutralStep; split <;> rfl

theorem pdStep_arithRange {clk : Word} {x : Int} (h : u.pdStep c clk = some (u', x)) :
    u'.arithRange = u.arithRange := by
  rcases pdStep_cases c u clk with ⟨_, h'⟩ | ⟨_, _, h'⟩ | ⟨_, _, h'⟩ <;> cases h'.symm.trans h
  · exact neutralStep_arithRange
  · rfl

theorem pidStep_arithRange {clk : Word} {x : Int} (h : u.pidStep c clk = some (u', x)) :
    u'.arithRange = u.arithRange := by
  rcases pidStep_cases c u clk with ⟨_, h'⟩ | ⟨_, _, h'⟩ | ⟨_, _, h'⟩ <;> cases h'.symm.trans h
  · exact neutralStep_arithRange
  · rfl

theorem climStep_arithRange {cur : Word} {x y : Int} (h : u.climStep c x cur = some (u', y)) :
    u'.arithRange = u.arithRange := by
  rcases climStep_cases c u x cur with ⟨_, h'⟩ | ⟨_, h'⟩ <;> cases h'.symm.trans h
  rfl

theorem plimStep_arithRange (x : Int) (cur vb : Word) : (u.plimStep c x cur vb).1.arithRange = u.arithRange := by
  rw [plimStep_frame]

theorem actStep_arithRange (x : Int) : (u.actStep c x).arithRange = u.arithRange := by
  rw [actStep_frame]

theorem opTick_arithRange (h : u.opTick c p = some u') : u'.arithRange = u.arithRange := by
  rcases opTick_cases c p u with ⟨u1, x1, u2, x2, hl, hc, h'⟩ | ⟨_, h'⟩ | ⟨_, _, _, _, h'⟩ <;> cases h'.symm.trans h
  calc ((u2.plimStep c x2 p.measCurrent p.busVoltage).1.actStep c _).arithRange
      = (u2.plimStep c x2 p.measCurrent p.busVoltage).1.arithRange := actStep_arithRange _
    _ = u2.arithRange := plimStep_arithRange _ _ _
    _ = u1.arithRange := climStep_arithRange hc
    _ = u.arithRange := by rw [lawStep_frame hl]

/-- An operation whose checks hold leaves ARITH_RANGE[m] as it is (R33, R212). -/
theorem operation_arithRange (h : u.operation c p i = some u') : u'.arithRange = u.arithRange := by
  cases i with
  | motTick => exact opTick_arithRange h
  | motPd =>
    obtain ⟨r, hr, rfl⟩ := Option.map_eq_some_iff.1 h
    exact pdStep_arithRange (u' := r.1) hr
  | motPid =>
    obtain ⟨r, hr, rfl⟩ := Option.map_eq_some_iff.1 h
    exact pidStep_arithRange (u' := r.1) hr
  | motClim =>
    obtain ⟨r, hr, rfl⟩ := Option.map_eq_some_iff.1 h
    exact climStep_arithRange (u' := r.1) hr
  | motPlim => cases h; exact plimStep_arithRange _ _ _
  | motAct => cases h; exact actStep_arithRange _
  | _ => cases h; rfl

/-! ### Under well-chosen gains every check holds -/

theorem opTick_ne_none_of_wellChosen (hw : c.WellChosen) (h : MotorInv c u) : u.opTick c p ≠ none := by
  intro hnone
  rcases opTick_eq_none_iff.1 hnone with hl | ⟨u1, x, hl, hc⟩
  · obtain ⟨u1, h1⟩ := lawStep_of_checks (lawChecks_of_wellChosen (clk := p.measClicks) hw h)
    cases hl.symm.trans h1
  · exact hc (climChecks_of_wellChosen hw h (lawStep_inv h hl).2)

/-- Under well-chosen gains no operation on a unit in its ranges is abandoned (R15). -/
theorem operation_ne_none_of_wellChosen (hw : c.WellChosen) (h : MotorInv c u) : u.operation c p i ≠ none := by
  cases i with
  | motTick => exact opTick_ne_none_of_wellChosen hw h
  | motPd => exact fun hno => (opPd_eq_none_iff.1 hno).elim fun hn hc => hc (pdChecks_of_wellChosen hw h hn)
  | motPid => exact fun hno => (opPid_eq_none_iff.1 hno).elim fun hn hc => hc (pidChecks_of_wellChosen hw h hn)
  | motClim => exact fun hno => opClim_eq_none_iff.1 hno (climChecks_of_wellChosen hw h h.v_range)
  | _ => exact nofun

/-- Under well-chosen gains an operation leaves every ARITH_RANGE bit as it is. -/
theorem exec_arithRange_of_wellChosen (hw : s.cfg.WellChosen) (h : MotorInv s.cfg (s.motor m))
    (he : exec i s = .next t) : (t.motor m).arithRange = (s.motor m).arithRange := by
  rcases motor_of_exec he m with ⟨_, ht⟩ | ⟨_, ht⟩ <;> rw [ht]
  obtain ⟨u', hu⟩ := Option.ne_none_iff_exists'.1
    (operation_ne_none_of_wellChosen (p := s.ports.motor m) (i := i) hw h)
  rw [hu]
  exact operation_arithRange hu

/-! ### Power-on -/

/-- Replacing the parameters with a default by that default keeps the constraints of R9. -/
theorem block_wf : Config.block.Wf := by
  obtain ⟨_, _, hmodes, hlimits, hsizes, hfixed, hlength⟩ := Config.openPart.property
  exact ⟨by constructor <;> decide, by constructor <;> decide, hmodes, hlimits, hsizes, hfixed, hlength⟩

@[simp] theorem resetWith_motor (cfg : Config) (table : Vector Word 256) (m : Motor) :
    (State.resetWith cfg table).motor m = MotorUnit.reset := by cases m <;> rfl

/-- The table of R231 holds at power-on, whatever the parameters and the CRC table are. -/
theorem resetValues_resetWith (cfg : Config) (table : Vector Word 256) :
    ResetValues (State.resetWith cfg table) := by
  constructor
  case arith_range | setpoint | law | last_error | integral_error | acc | correction | ring | ring_idx | decay_counter |
      last_direction | v | duties => simp [MotorUnit.reset]
  all_goals rfl

/-- With every element at its reset value the status word is 0 (R34, R231). -/
theorem ResetValues.statusWord_eq (h : ResetValues t) : t.statusWord = 0x0000#16 := by
  have h0 : t.motor0.arithRange = false := h.arith_range .m0
  have h1 : t.motor1.arithRange = false := h.arith_range .m1
  have h2 : t.motor2.arithRange = false := h.arith_range .m2
  rw [State.statusWord, h0, h1, h2, h.pstate, h.cmd_disabled, h.tx_busy, h.staged_valid, h.rx_overflow, h.illegal_cmd]
  rfl

theorem ResetValues.frameReady_eq (h : ResetValues t) : t.frameReady = false := h.staged_valid

end Sys2Proof.Machine

namespace Sys2Proof.Machine

/-! ### The obligations -/

/-- Settles O58: an operation can raise ARITH_RANGE only by a failed check, and under the invariant well-chosen gains
leave none to fail; the other steps leave the bit or clear it. -/
theorem wellChosenGainsNeverFault : Obligations.WellChosenGainsNeverFault := by
  intro s t m hw hinv ht hbit
  rcases step_cases s with ⟨_, hs⟩ | ⟨rest, _, hs⟩ | ⟨d, rest, i, _, _, hs⟩ | ⟨d, rest, g, _, _, hs⟩ <;> rw [hs] at ht
  · cases ht; exact hbit
  · cases ht; rw [resetEvent_motor] at hbit; cases hbit
  · let s' : State := { s with pending := rest, ports := d.ports }
    have hm : s'.motor m = s.motor m := by cases m <;> rfl
    have hinv' : MotorInv s'.cfg (s'.motor m) := hm ▸ hinv.motors m
    have hkeep : (t.motor m).arithRange = (s'.motor m).arithRange := exec_arithRange_of_wellChosen hw hinv' ht
    rw [← hm, ← hkeep]
    exact hbit
  · cases ht; cases m <;> exact hbit

/-- Settles O41: in each of the four operations a failed check makes the unit's operation answer none. -/
theorem rangeFaultForcesUnitSafe : Obligations.RangeFaultForcesUnitSafe := by
  rintro m s u safe p rfl rfl rfl
  have tick (h : (s.motor m).opTick s.cfg (s.ports.motor m) = none) :
      exec (.motTick m) s = .next (s.setMotor m (s.motor m).forceSafe) := exec_of_operation_eq_none rfl h
  refine ⟨fun h0 hl hh => ?_, fun hc => exec_of_operation_eq_none rfl (opClim_eq_none_iff.2 hc),
    fun u1 x hlaw hc => tick (opTick_eq_none_iff.2 (.inr ⟨u1, x, hlaw, hc⟩))⟩
  have hn : ¬ Neutral (sext8 (s.motor m).setpoint) := not_neutral h0 hl hh
  refine ⟨fun hc => ⟨exec_of_operation_eq_none rfl (opPd_eq_none_iff.2 ⟨hn, hc⟩), fun hlaw => ?_⟩,
    fun hc => ⟨exec_of_operation_eq_none rfl (opPid_eq_none_iff.2 ⟨hn, hc⟩), fun hlaw => ?_⟩⟩
  · exact tick (opTick_eq_none_iff.2 (.inl (by rw [lawStep_of_pd hlaw]; exact pdStep_eq_none_iff.2 ⟨hn, hc⟩)))
  · exact tick (opTick_eq_none_iff.2 (.inl (by rw [lawStep_of_pid hlaw]; exact pidStep_eq_none_iff.2 ⟨hn, hc⟩)))

/-- Settles O51: a motor-loop operation is one write of its unit, and the others leave every unit. -/
theorem operationsKeepToTheirUnit : Obligations.OperationsKeepToTheirUnit := by
  refine fun i s t he => ⟨fun m hi => ?_, fun hi => motor_of_operationUnit_eq_none hi he⟩
  rw [exec_of_operationUnit hi, runMotor_eq_setMotor] at he
  cases he
  rw [setMotor_motor_same]

/-- Settles O52: the next unit is a function of the parameters, the unit's ports and the unit. -/
theorem unitResultIndependentOfRest : Obligations.UnitResultIndependentOfRest := by
  intro i m s s' t t' hi hcfg hunit hports he he'
  rw [exec_of_operationUnit hi, runMotor_eq_setMotor] at he he'
  cases he
  cases he'
  rw [setMotor_motor_same, setMotor_motor_same, hcfg, hunit, hports]

/-- Settles O8: the table of R231 holds at `State.resetWith`, and the derived views follow from it. -/
theorem powerOnStateHasResetValues : Obligations.PowerOnStateHasResetValues :=
  have h : ResetValues State.reset := resetValues_resetWith _ _
  ⟨h, block_wf, h.crc, h.statusWord_eq, h.frameReady_eq⟩

end Sys2Proof.Machine
end

section
/-! PROOFS. What the operations may write, said once for the CRC and protocol units (`blockRegistersHaveNamedWriters`)
and once for a motor-loop unit (`motor_of_exec` and the frames of the stages), and what follows for a whole step: the
sticky bits and the send buffer stay (R33, R76), and every state element stays in its range (`State.Inv`). -/

namespace Sys2Proof.Machine

variable {c : Config} {p : MotorPorts} {u u' : MotorUnit} {i : Instr} {m : Motor} {s t : State} {d d' : DecodeRun}
  {k : FaultKind}

/-! ### The registers of the CRC and protocol units -/

/-- Settles O54: a motor-loop operation is one write of its unit; the other operations are read off one by one. -/
theorem blockRegistersHaveNamedWriters : Obligations.BlockRegistersHaveNamedWriters := by
  intro i s t he
  cases hi : operationUnit i with
  | some m =>
    rw [exec_of_operationUnit hi, runMotor_eq_setMotor] at he
    cases he
    simp
  | none =>
    cases i with
    | motSetsp | motSetlaw | motTick | motDirect | motPd | motPid | motClim | motPlim | motAct => cases hi
    | crcInit | crcUpdate | protSetgate | protTxdone | sysNop | crcRead | sysStatus | protDecode => cases he; simp
    | protRxpush | protTake | protEncode => cases he; split <;> simp

/-- PROT.RXPUSH only sets RX_OVERFLOW (R120); no other operation writes it. -/
theorem rxOverflow_of_exec (he : exec i s = .next t) (h : s.rxOverflow = true) : t.rxOverflow = true := by
  obtain ⟨-, -, -, -, -, -, -, -, -, -, -, hover, -⟩ := blockRegistersHaveNamedWriters i s t he
  by_cases hi : ∃ b, i = .protRxpush b
  · obtain ⟨b, rfl⟩ := hi
    cases he
    split
    · exact h
    · rfl
  · rw [hover fun b hb => hi ⟨b, hb⟩]
    exact h

/-- An operation other than PROT.DECODE stages no frame: PROT.TAKE clears staged_valid (R132). -/
theorem stagedValid_of_exec (he : exec i s = .next t) (hi : i ≠ .protDecode) (h : t.stagedValid = true) :
    s.stagedValid = true := by
  obtain ⟨-, -, -, -, -, -, -, hvalid, -⟩ := blockRegistersHaveNamedWriters i s t he
  by_cases htake : i = .protTake
  · subst htake
    cases he
    split at h
    · assumption
    · exact h
  · rwa [hvalid (by simp [hi, htake])] at h

/-- An operation other than PROT.ENCODE starts no send: PROT.TXDONE clears tx_busy (R144). -/
theorem txBusy_of_exec (he : exec i s = .next t) (hi : i ≠ .protEncode) (h : t.txBusy = true) : s.txBusy = true := by
  obtain ⟨-, -, -, -, -, -, -, -, -, -, hbusy, -⟩ := blockRegistersHaveNamedWriters i s t he
  by_cases hdone : i = .protTxdone
  · subst hdone
    cases he
    cases h
  · rwa [hbusy (by simp [hi, hdone])] at h

/-- PROT.ENCODE is the only writer of tx_buf, and it writes nothing while a send is in flight (R76, R141). -/
theorem txBuf_of_exec_of_busy (he : exec i s = .next t) (h : s.txBusy = true) : t.txBuf = s.txBuf := by
  obtain ⟨-, -, -, -, -, -, -, -, -, hbuf, -⟩ := blockRegistersHaveNamedWriters i s t he
  by_cases hi : i = .protEncode
  · subst hi
    cases he
    rw [if_pos h, respond_txBuf]
  · exact hbuf hi

/-- Settles O23: the fetch and a reserved word leave tx_buf, and so does every operation while tx_busy is 1. -/
theorem sendBufferKeptWhileBusy : Obligations.SendBufferKeptWhileBusy := by
  intro s t ht hbusy hhead
  rcases step_cases s with ⟨_, hs⟩ | ⟨rest, hp, _⟩ | ⟨d, rest, i, _, _, hs⟩ | ⟨d, rest, g, _, _, hs⟩
  · cases hs.symm.trans ht; rfl
  · exact absurd (by rw [hp]; rfl) hhead
  · have hkeep := txBuf_of_exec_of_busy (hs.symm.trans ht) hbusy
    exact hkeep
  · cases hs.symm.trans ht; rfl

/-! ### The sticky bits -/

/-- The fetch and a reserved word leave the motor-loop units. -/
theorem motor_of_port (s : State) (rest : List PortEvent) (ports : InPorts) (illegal : Bool) (m : Motor) :
    State.motor { s with pending := rest, ports := ports, illegalCmd := illegal } m = s.motor m := by
  cases m <;> rfl

/-- The fetch and a reserved word clear no sticky bit. -/
theorem faultBit_of_port (rest : List PortEvent) (ports : InPorts) {illegal : Bool}
    (hi : s.illegalCmd = true → illegal = true) (h : s.faultBit k = true) :
    State.faultBit { s with pending := rest, ports := ports, illegalCmd := illegal } k = true := by
  cases k with
  | illegalCmd => exact hi h
  | rxOverflow => exact h
  | arithRange m => rw [State.faultBit, motor_of_port]; exact h

/-- An operation writes ARITH_RANGE[m] only by raising the fault, which sets it (R212). -/
theorem arithRange_of_exec (he : exec i s = .next t) (h : (s.motor m).arithRange = true) :
    (t.motor m).arithRange = true := by
  rcases motor_of_exec he m with ⟨_, ht⟩ | ⟨_, ht⟩ <;> rw [ht]
  · cases ho : (s.motor m).operation s.cfg (s.ports.motor m) i with
    | none => rfl
    | some u' => exact (operation_arithRange ho).trans h
  · exact h

/-- No operation clears a sticky bit (R33, R210). -/
theorem faultBit_of_exec (he : exec i s = .next t) (h : s.faultBit k = true) : t.faultBit k = true := by
  cases k with
  | illegalCmd =>
    obtain ⟨-, -, hillegal, -⟩ := blockRegistersHaveNamedWriters i s t he
    exact hillegal.trans h
  | rxOverflow => exact rxOverflow_of_exec he h
  | arithRange m => exact arithRange_of_exec he h

/-- Settles O53: the fetch leaves the sticky bits, a reserved word sets one, and no operation clears one. -/
theorem stickyBitsStayUntilReset : Obligations.StickyBitsStayUntilReset := by
  intro s t k ht hhead hbit
  rcases step_cases s with ⟨_, hs⟩ | ⟨rest, hp, _⟩ | ⟨d, rest, i, _, _, hs⟩ | ⟨d, rest, g, _, _, hs⟩
  · cases hs.symm.trans ht; exact hbit
  · exact absurd (by rw [hp]; rfl) hhead
  · exact faultBit_of_exec (hs.symm.trans ht) (faultBit_of_port rest d.ports id hbit)
  · cases hs.symm.trans ht; exact faultBit_of_port rest d.ports (fun _ => rfl) hbit

/-! ### The registers of a motor-loop unit -/

theorem neutralStep_frame : ∃ e ig a, u.neutralStep c = { u with lastError := e, integralError := ig, acc := a } := by
  unfold MotorUnit.neutralStep
  split <;> exact ⟨_, _, _, rfl⟩

/-- The law stage PD writes last_error, acc and v, and integral_error when a neutral setpoint clears it (R162, R164). -/
theorem opPd_frame (h : u.opPd c p = some u') :
    ∃ e ig a x, u' = { u with lastError := e, integralError := ig, acc := a, v := x } := by
  obtain ⟨⟨w, x⟩, hr, rfl⟩ := Option.map_eq_some_iff.1 h
  rcases pdStep_cases c u p.measClicks with ⟨_, h'⟩ | ⟨_, _, h'⟩ | ⟨_, _, h'⟩ <;> cases h'.symm.trans hr
  · obtain ⟨e, ig, a, hn⟩ := neutralStep_frame (c := c) (u := u)
    exact ⟨e, ig, a, _, by rw [hn]; rfl⟩
  · exact ⟨_, _, _, _, rfl⟩

/-- The law stage PID writes last_error, integral_error, acc and v (R162, R166). -/
theorem opPid_frame (h : u.opPid c p = some u') :
    ∃ e ig a x, u' = { u with lastError := e, integralError := ig, acc := a, v := x } := by
  obtain ⟨⟨w, x⟩, hr, rfl⟩ := Option.map_eq_some_iff.1 h
  rcases pidStep_cases c u p.measClicks with ⟨_, h'⟩ | ⟨_, _, h'⟩ | ⟨_, _, h'⟩ <;> cases h'.symm.trans hr
  · obtain ⟨e, ig, a, hn⟩ := neutralStep_frame (c := c) (u := u)
    exact ⟨e, ig, a, _, by rw [hn]; rfl⟩
  · exact ⟨_, _, _, _, rfl⟩

theorem climStep_frame {x y : Int} {cur : Word} (h : u.climStep c x cur = some (u', y)) :
    u' = { u with correction := u'.correction } := by
  rcases climStep_cases c u x cur with ⟨_, h'⟩ | ⟨_, h'⟩ <;> cases h'.symm.trans h
  rfl

/-- The current limiter writes correction and v (R169). -/
theorem opClim_frame (h : u.opClim c p = some u') : ∃ k x, u' = { u with correction := k, v := x } := by
  obtain ⟨⟨w, x⟩, hr, rfl⟩ := Option.map_eq_some_iff.1 h
  exact ⟨w.correction, x, by rw [climStep_frame hr]; rfl⟩

/-- The power limiter writes ring, ring_idx, decay_counter and v (R171). -/
theorem opPlim_frame : ∃ r j k x, u.opPlim c p = { u with ring := r, ringIdx := j, decayCounter := k, v := x } :=
  ⟨_, _, _, _, by rw [MotorUnit.opPlim, MotorUnit.withV, plimStep_frame]⟩

/-- A tick leaves what the agents set: setpoint (R38) and law (R39). -/
theorem opTick_frame (h : u.opTick c p = some u') : u'.setpoint = u.setpoint ∧ u'.law = u.law := by
  rcases opTick_cases c p u with ⟨u1, x1, u2, x2, hl, hc, h'⟩ | ⟨_, h'⟩ | ⟨_, _, _, _, h'⟩ <;> cases h'.symm.trans h
  rw [actStep_frame, plimStep_frame, climStep_frame hc, lawStep_frame hl]
  exact ⟨rfl, rfl⟩

/-- Only the operations with checks can be abandoned (R212). -/
theorem mem_of_operation_eq_none (hi : operationUnit i = some m) (h : u.operation c p i = none) :
    i ∈ [Instr.motPd m, .motPid m, .motClim m, .motTick m] := by
  cases i with
  | motPd | motPid | motClim | motTick => cases hi; simp
  | _ => cases h

/-- Settles O55: an operation of another unit writes nothing of unit m, an abandoned one forces it safe, and each of the
others writes what the frame of its stage names. -/
theorem unitRegistersHaveNamedWriters : Obligations.UnitRegistersHaveNamedWriters := by
  rintro i m s t u u' he rfl rfl
  rcases motor_of_exec he m with ⟨hi, ht⟩ | ⟨_, ht⟩
  · rw [ht]
    cases ho : (s.motor m).operation s.cfg (s.ports.motor m) i with
    | none =>
      have hmem := mem_of_operation_eq_none hi ho
      simp only [List.mem_cons, List.not_mem_nil, or_false] at hmem
      rcases hmem with rfl | rfl | rfl | rfl <;> simp
    | some w =>
      cases i with
      | motTick => obtain ⟨hsp, hlaw⟩ := opTick_frame ho; cases hi; simp [hsp, hlaw]
      | motPd => obtain ⟨e, ig, a, x, rfl⟩ := opPd_frame ho; cases hi; simp
      | motPid => obtain ⟨e, ig, a, x, rfl⟩ := opPid_frame ho; cases hi; simp
      | motClim => obtain ⟨k, x, rfl⟩ := opClim_frame ho; cases hi; simp
      | motPlim =>
        obtain ⟨r, j, k, x, hw⟩ := opPlim_frame (c := s.cfg) (p := s.ports.motor m) (u := s.motor m)
        cases hw.symm.trans (Option.some.inj ho)
        cases hi
        simp
      | motAct => cases ho; cases hi; rw [actStep_frame]; simp
      | _ => cases ho; cases hi <;> simp
  · simp [ht]

/-! ### The invariant: the motor-loop units -/

theorem operation_inv (h : MotorInv c u) (ho : u.operation c p i = some u') : MotorInv c u' := by
  cases i with
  | motTick => exact opTick_inv h ho
  | motDirect => cases ho; exact { h with v_range := ⟨le_clamp (by decide) _, clamp_le (by decide) _⟩ }
  | motPd =>
    obtain ⟨⟨w, x⟩, hr, rfl⟩ := Option.map_eq_some_iff.1 ho
    obtain ⟨hw, hx⟩ := pdStep_inv h hr
    exact withV_inv hw hx
  | motPid =>
    obtain ⟨⟨w, x⟩, hr, rfl⟩ := Option.map_eq_some_iff.1 ho
    obtain ⟨hw, hx⟩ := pidStep_inv h hr
    exact withV_inv hw hx
  | motClim =>
    obtain ⟨⟨w, x⟩, hr, rfl⟩ := Option.map_eq_some_iff.1 ho
    obtain ⟨hw, hx⟩ := climStep_inv h h.v_range hr
    exact withV_inv hw hx
  | motPlim =>
    cases ho
    obtain ⟨hw, hx⟩ := plimStep_inv (cur := p.measCurrent) (vb := p.busVoltage) h h.v_range
    exact withV_inv hw hx
  | motAct => cases ho; exact actStep_inv h
  | _ => cases ho; exact { h with }

/-- Whatever an operation does to unit m, the unit stays in its ranges. -/
theorem motorInv_of_exec (he : exec i s = .next t) (h : MotorInv s.cfg (s.motor m)) : MotorInv s.cfg (t.motor m) := by
  rcases motor_of_exec he m with ⟨_, ht⟩ | ⟨_, ht⟩ <;> rw [ht]
  · cases ho : (s.motor m).operation s.cfg (s.ports.motor m) i with
    | none => exact forceSafe_inv h
    | some u' => exact operation_inv h ho
  · exact h

theorem motorUnitReset_inv : MotorInv c MotorUnit.reset := by
  constructor <;> simp [MotorUnit.reset]

/-! ### The invariant: the parser -/

/-- What holds throughout a PROT.DECODE call: rx_fifo within its capacity (R27), a work frame that announced led data in
LEDDATA (R124), and a completed frame that R29 allows. -/
structure DecodeRun.Inv (c : Config) (d : DecodeRun) : Prop where
  rx_capacity : d.rx.length ≤ c.rxBufCap
  work_custom : d.pstate = .ledData → d.work.ledMode = c.ledCustom
  frame_wf : ∀ f, d.frame = some f → f.Wf c

/-- The led data staged from 48 bytes is 16 triples (R125). -/
theorem ledTriples_take_length {rx : List Byte} (h : 48 ≤ rx.length) : (ledTriples (rx.take 48)).length = 16 :=
  (ledTriples_get 16 _ (by rw [List.length_take]; omega)).1

theorem parserStep_inv (h : d.Inv c) (hs : parserStep c d = some d') : d'.Inv c := by
  have hrx : d'.rx.length ≤ c.rxBufCap := by
    obtain ⟨n, _, _, hdrop, _⟩ := parserStep_consumes hs
    rw [hdrop, List.length_drop]
    exact (Nat.sub_le _ _).trans h.rx_capacity
  rcases parserStep_cases c d with ⟨h', _⟩ | ⟨want, after, b, rest, hexp, _, _, h'⟩ |
    ⟨d0, d1, d2, d3, d4, rest, _, _, _, h'⟩ | ⟨hled, hlen, _, h'⟩ <;> cases h'.symm.trans hs
  · exact { rx_capacity := hrx
            work_custom := fun hl => absurd hl (headerStep_ne_ledData hexp)
            frame_wf := h.frame_wf }
  · split at hrx
    · rename_i hcustom
      rw [if_pos hcustom]
      exact { rx_capacity := hrx, work_custom := fun _ => hcustom, frame_wf := h.frame_wf }
    · rename_i hcustom
      rw [if_neg hcustom]
      exact { rx_capacity := hrx, work_custom := nofun, frame_wf := fun f hf => by cases hf; exact hcustom }
  · exact { rx_capacity := hrx
            work_custom := nofun
            frame_wf := fun f hf => by cases hf; exact ⟨h.work_custom hled, ledTriples_take_length hlen⟩ }

theorem decodeEnd_inv (h : ProtInv s) : s.decodeEnd.Inv s.cfg :=
  parserLoop_induction (DecodeRun.Inv s.cfg) (fun _ _ hd _ hs => parserStep_inv hd hs) _ _
    { rx_capacity := h.rx_capacity, work_custom := h.work_custom, frame_wf := nofun }

theorem afterDecode_inv (h : ProtInv s) (hd : d.Inv s.cfg) : ProtInv (s.afterDecode d) where
  rx_capacity := by simpa using hd.rx_capacity
  work_custom := by simpa using hd.work_custom
  staged_wf := by
    rw [afterDecode_stagedValid, afterDecode_staged, afterDecode_cfg]
    cases hf : d.frame with
    | none => simpa using h.staged_wf
    | some f => exact fun _ => hd.frame_wf f hf

/-- PROT.RXPUSH appends only below RX_BUF_CAP (R120), and the other operations but PROT.DECODE leave rx_fifo. -/
theorem rxFifo_length_of_exec (he : exec i s = .next t) (hi : i ≠ .protDecode)
    (h : s.rxFifo.length ≤ s.cfg.rxBufCap) : t.rxFifo.length ≤ s.cfg.rxBufCap := by
  obtain ⟨-, -, -, -, -, -, hrx, -⟩ := blockRegistersHaveNamedWriters i s t he
  by_cases hpush : ∃ b, i = .protRxpush b
  · obtain ⟨b, rfl⟩ := hpush
    cases he
    split
    · rw [pushRx_rxFifo, List.length_append]; assumption
    · exact h
  · rw [hrx hi fun b hb => hpush ⟨b, hb⟩]
    exact h

theorem protInv_of_exec (he : exec i s = .next t) (h : ProtInv s) : ProtInv t := by
  by_cases hi : i = .protDecode
  · subst hi
    cases he
    exact afterDecode_inv h (decodeEnd_inv h)
  · obtain ⟨hcfg, -, -, -, -, hparser, -⟩ := blockRegistersHaveNamedWriters i s t he
    obtain ⟨hpstate, hwork, hstaged⟩ := hparser hi
    exact { rx_capacity := by rw [hcfg]; exact rxFifo_length_of_exec he hi h.rx_capacity
            staged_wf := fun hv => by rw [hcfg, hstaged]; exact h.staged_wf (stagedValid_of_exec he hi hv)
            work_custom := by rw [hcfg, hpstate, hwork]; exact h.work_custom }

/-! ### The invariant: the send buffer -/

/-- The frame PROT.ENCODE builds is whole (R100, R145). -/
theorem telemetryFrame_whole (c : Config) (table : Vector Word 256) (x : TelemetrySample) :
    frameWhole c table (telemetryFrame c table x) := by
  refine ⟨?_, frameBody c x, rfl⟩
  rw [telemetryFrame, List.length_append, frameBody_length, crcBytes_length, frameLength]
  omega

theorem telemetryFrame_ne_nil (c : Config) (table : Vector Word 256) (x : TelemetrySample) :
    telemetryFrame c table x ≠ [] :=
  List.append_ne_nil_of_right_ne_nil _ nofun

theorem buildFrame_txInv (s : State) : TxInv s.buildFrame where
  busy_has_frame _ := by rw [buildFrame_txBuf]; exact telemetryFrame_ne_nil _ _ _
  whole _ := by rw [buildFrame_txBuf]; exact telemetryFrame_whole _ _ _

theorem txInv_of_exec (he : exec i s = .next t) (h : TxInv s) : TxInv t := by
  by_cases hi : i = .protEncode
  · subst hi
    cases he
    split
    · exact { h with }
    · exact buildFrame_txInv s
  · obtain ⟨hcfg, htable, -, -, -, -, -, -, -, hbuf, -⟩ := blockRegistersHaveNamedWriters i s t he
    exact { busy_has_frame := fun hb => by rw [hbuf hi]; exact h.busy_has_frame (txBusy_of_exec he hi hb)
            whole := by rw [hbuf hi, hcfg, htable]; exact h.whole }

/-! ### The invariant: the step -/

/-- Every operation keeps the invariant. -/
theorem inv_of_exec (he : exec i s = .next t) (h : s.Inv) : t.Inv := by
  obtain ⟨hcfg, -⟩ := blockRegistersHaveNamedWriters i s t he
  exact { motors := fun m => by rw [hcfg]; exact motorInv_of_exec he (h.motors m)
          prot := protInv_of_exec he h.prot
          tx := txInv_of_exec he h.tx }

/-- The invariant reads neither the command port nor the input ports nor ILLEGAL_CMD. -/
theorem State.Inv.of_port (h : s.Inv) (rest : List PortEvent) (ports : InPorts) (illegal : Bool) :
    State.Inv { s with pending := rest, ports := ports, illegalCmd := illegal } where
  motors m := by rw [motor_of_port]; exact h.motors m
  prot := { h.prot with }
  tx := { h.tx with }

/-- RESET establishes the invariant, whatever the state was (R231). -/
theorem resetEvent_inv (s : State) : s.resetEvent.Inv where
  motors m := by rw [resetEvent_motor]; exact motorUnitReset_inv
  prot := { rx_capacity := Nat.zero_le _, staged_wf := nofun, work_custom := nofun }
  tx := { busy_has_frame := nofun, whole := fun h => absurd rfl h }

/-- Settles O56: an idle step and the fetch keep the invariant, RESET establishes it, and every operation keeps it. -/
theorem stepKeepsInvariant : Obligations.StepKeepsInvariant := by
  intro s t h ht
  rcases step_cases s with ⟨_, hs⟩ | ⟨rest, _, hs⟩ | ⟨d, rest, i, _, _, hs⟩ | ⟨d, rest, g, _, _, hs⟩
  · cases hs.symm.trans ht; exact h
  · cases hs.symm.trans ht; exact resetEvent_inv _
  · exact inv_of_exec (hs.symm.trans ht) (h.of_port rest d.ports s.illegalCmd)
  · cases hs.symm.trans ht; exact h.of_port rest d.ports true

end Sys2Proof.Machine
end

section
/-! PROOFS. What a command word on the port runs (R60, R80), and with it the agents: the block does not look at them
(R61), and by the rule of use each keeps to its elements (R62, R250). Last, the bytes of a telemetry element spell its
value (R66, R99). -/

namespace Sys2Proof.Machine

variable {i : Instr} {s t : State} {c : Issue} {rest : List PortEvent}

/-! ### The command port -/

/-- A step with a command word next on the port runs the word under the port values it came with (R60, R70). -/
theorem step_of_command (hp : s.pending = .command c :: rest) :
    step s = runWord c.word { s with pending := rest, ports := c.ports } := by
  rw [step, State.nextEvent, hp]

theorem runWord_of_decode {w : Word} (hd : decode w = .ok i) : runWord w s = exec i s := by
  rw [runWord, hd]

/-- Settles O5: the fetch gives the word, and a word that decodes runs its operation. -/
theorem stepRunsDecodedOperation : Obligations.StepRunsDecodedOperation :=
  fun _ _ _ _ hp hd => (step_of_command hp).trans (runWord_of_decode hd)

/-- Settles O11: what a command word runs does not mention its agent. -/
theorem stepIgnoresAgent : Obligations.StepIgnoresAgent := by
  intro s a b w p rest
  rw [step_of_command rfl, step_of_command rfl]

/-! ### The rule of use -/

/-- A command that follows the rule of use is an operation its agent may issue; a reserved word is none (R62). -/
theorem followsRule_command_iff :
    (PortEvent.command c).followsRule = true ↔ ∃ i, decode c.word = .ok i ∧ c.agent.mayIssue i = true := by
  cases hd : decode c.word <;> simp [PortEvent.followsRule, hd]

theorem mayIssue_receive_iff :
    Agent.mayIssue .receive i = true ↔ i = .protDecode ∨ ∃ b, i = .protRxpush b := by
  cases i <;> simp [Agent.mayIssue]

theorem mayIssue_transport_iff : Agent.mayIssue .transport i = true ↔ i = .protTxdone := by
  cases i <;> simp [Agent.mayIssue]

theorem mayIssue_tick_iff :
    Agent.mayIssue .tick i = true ↔ (∀ b, i ≠ .protRxpush b) ∧ i ≠ .protTxdone := by
  cases i <;> simp [Agent.mayIssue]

/-! ### What each agent's operations change -/

/-- PROT.DECODE changes the parser, work, rx_fifo, the staged frame and rsp only (R128). -/
theorem afterDecode_frame (s : State) (d : DecodeRun) :
    s.afterDecode d = { s with
      pstate := d.pstate, rxFifo := d.rx, work := d.work, staged := (s.afterDecode d).staged,
      stagedValid := (s.afterDecode d).stagedValid, rsp := d.response } := by
  unfold State.afterDecode State.stageFrom
  split <;> rfl

/-- PROT.DECODE takes bytes off the front of rx_fifo and adds none (R128). -/
theorem decodeEnd_rx_length_le (s : State) : s.decodeEnd.rx.length ≤ s.rxFifo.length := by
  obtain ⟨-, k, -, hrx, -⟩ := parserLoop_ends (c := s.cfg) s.rxFifo.length s.decodeStart le_rfl
  rw [State.decodeEnd, hrx, List.length_drop]
  exact Nat.sub_le _ _

/-- The operations of the receive agent change its elements only (R61, R62). -/
theorem frame_of_receive_exec (hi : Agent.mayIssue .receive i = true) (he : exec i s = .next t) :
    t = { s with
      pstate := t.pstate, rxFifo := t.rxFifo, work := t.work, staged := t.staged, stagedValid := t.stagedValid,
      rsp := t.rsp, rxOverflow := t.rxOverflow } := by
  rcases mayIssue_receive_iff.1 hi with rfl | ⟨b, rfl⟩ <;> cases he
  · rw [afterDecode_frame]
  · split <;> rfl

/-- The operation of the transport agent ends a send and changes nothing else (R144). -/
theorem eq_of_transport_exec (hi : Agent.mayIssue .transport i = true) (he : exec i s = .next t) :
    t = { s with txBusy := false } := by
  cases mayIssue_transport_iff.1 hi
  cases he
  rfl

/-- Only PROT.RXPUSH adds to rx_fifo (R120). -/
theorem rxFifo_length_le_of_exec (hpush : ∀ b, i ≠ .protRxpush b) (he : exec i s = .next t) :
    t.rxFifo.length ≤ s.rxFifo.length := by
  obtain ⟨-, -, -, -, -, -, hrx, -⟩ := blockRegistersHaveNamedWriters i s t he
  by_cases hi : i = .protDecode
  · subst hi
    cases he
    rw [afterDecode_rxFifo]
    exact decodeEnd_rx_length_le s
  · rw [hrx hi hpush]

/-- Only PROT.TXDONE ends a send (R144): PROT.ENCODE leaves a busy sender busy (R141). -/
theorem txBusy_of_exec_of_ne_txdone (hdone : i ≠ .protTxdone) (he : exec i s = .next t) (h : s.txBusy = true) :
    t.txBusy = true := by
  obtain ⟨-, -, -, -, -, -, -, -, -, -, hbusy, -⟩ := blockRegistersHaveNamedWriters i s t he
  by_cases hi : i = .protEncode
  · subst hi
    cases he
    rw [if_pos h, respond_txBusy]
    exact h
  · rw [hbusy (by simp [hi, hdone])]
    exact h

/-- Settles O12: the rule of use makes the step one of the agent's operations, and these keep to its elements. -/
theorem agentsKeepToTheirElements : Obligations.AgentsKeepToTheirElements := by
  intro s t c rest hp hrule ht
  obtain ⟨i, hd, hi⟩ := followsRule_command_iff.1 hrule
  have he : exec i { s with pending := rest, ports := c.ports } = .next t :=
    (stepRunsDecodedOperation s c rest i hp hd).symm.trans ht
  obtain ⟨-, -, hillegal, -, -, -, -, -, -, -, -, hover, -⟩ := blockRegistersHaveNamedWriters i _ t he
  refine ⟨hillegal, fun ha => ?_, fun ha => ?_, fun ha => ?_⟩ <;> rw [ha] at hi
  · exact frame_of_receive_exec hi he
  · exact eq_of_transport_exec hi he
  · obtain ⟨hpush, hdone⟩ := mayIssue_tick_iff.1 hi
    have hrx := rxFifo_length_le_of_exec hpush he
    have hbusy := txBusy_of_exec_of_ne_txdone hdone he
    exact ⟨hrx, hover hpush, hbusy⟩

/-! ### The bytes of a telemetry element -/

/-- Most significant first is the opposite order of least significant first (R66). -/
theorem elementBytes_true (w : Nat) (x : Int) : elementBytes true w x = (elementBytes false w x).reverse := rfl

theorem byteK_toNat (k v : Nat) : (byteK k v).toNat = v / 256 ^ k % 256 := by
  rw [byteK, BitVec.toNat_ofNat, pow_mul]; rfl

/-- Reading the w low bytes of u, most significant first, on from a value a read before them: each byte shifts what was
read by one place to base 256. -/
theorem foldl_byteK_reverse (u w a : Nat) :
    ((List.range w).map fun k => byteK k u).reverse.foldl (fun n b => n * 256 + b.toNat) a =
      a * 256 ^ w + u % 256 ^ w := by
  induction w generalizing a with
  | zero => simp [Nat.mod_one]
  | succ w ih =>
    rw [List.range_succ, List.map_append, List.reverse_append, List.foldl_append, ih, Nat.mod_pow_succ]
    simp only [List.map_cons, List.map_nil, List.reverse_singleton, List.foldl_cons, List.foldl_nil, byteK_toNat]
    ring

/-- Settles O20: the bytes read in order give u = x mod 2^(8w), which has no digit beyond them. -/
theorem elementBytesSpellValue : Obligations.ElementBytesSpellValue := by
  intro w x
  have hbase : (2 : Nat) ^ (8 * w) = 256 ^ w := pow_mul 2 8 w
  have hu : ((x % 2 ^ (8 * w)).toNat : Int) = x % 2 ^ (8 * w) :=
    Int.toNat_of_nonneg (Int.emod_nonneg _ (by positivity))
  have hlt : (x % 2 ^ (8 * w)).toNat < 256 ^ w := by
    have := Int.emod_lt_of_pos x (show (0 : Int) < 2 ^ (8 * w) by positivity)
    rw [← hbase]
    zify
    omega
  refine ⟨elementBytes_length _ _ _, ?_, by rw [elementBytes_true, List.reverse_reverse]⟩
  have hread : (elementBytes true w x).foldl (fun n b => n * 256 + b.toNat) 0 = (x % 2 ^ (8 * w)).toNat := by
    rw [elementBytes_true, elementBytes, if_neg Bool.false_ne_true, foldl_byteK_reverse, Nat.zero_mul, Nat.zero_add,
      Nat.mod_eq_of_lt hlt]
  rw [hread, hu]

end Sys2Proof.Machine
end

section
/-! PROOFS. The decoder against the encoder and against the tables. Each unit's decoder is run forward on the words of
the encoder (R82 to R86), inverted on the words it accepts (R90), and its ground compared with the first one of R88
that holds. Last, what a reserved word does on the command port (R211). -/

namespace Sys2Proof

variable {unit op : BitVec 4} {imm : Byte} {i j : Instr} {m : Motor} {w : Word} {g : ReservedWord} {n : Nat}

/-! ### A word of each unit goes to its unit's decoder -/

theorem decode_crcWord (op : BitVec 4) (imm : Byte) : decode (commandWord 0x0#4 op imm) = decodeCrc op imm := by
  rw [decode, unitField_commandWord, opField_commandWord, immField_commandWord]; rfl

theorem decode_protWord (op : BitVec 4) (imm : Byte) : decode (commandWord 0x1#4 op imm) = decodeProt op imm := by
  rw [decode, unitField_commandWord, opField_commandWord, immField_commandWord]; rfl

theorem decode_sysWord (op : BitVec 4) (imm : Byte) : decode (commandWord 0x2#4 op imm) = decodeSys op imm := by
  rw [decode, unitField_commandWord, opField_commandWord, immField_commandWord]; rfl

theorem decode_motWord (m : Motor) (op : BitVec 4) (imm : Byte) :
    decode (commandWord m.unitCode op imm) = decodeMot m op imm := by
  rw [decode, unitField_commandWord, opField_commandWord, immField_commandWord]
  cases m <;> rfl

/-! ### The operands -/

theorem decodeGate_ofBool (g : Bool) : decodeGate (0#7 ++ BitVec.ofBool g) = .ok (.protSetgate g) := by
  cases g <;> rfl

theorem decodeSetlaw_code (m : Motor) (law : Law) : decodeSetlaw m (0#6 ++ law.code) = .ok (.motSetlaw m law) := by
  cases law <;> rfl

/-- The bits from k on and the k bits below them make up the operand. -/
theorem extractLsb'_append_low {k n : Nat} (x : BitVec (n + k)) : x.extractLsb' k n ++ x.extractLsb' 0 k = x := by
  rw [BitVec.extractLsb'_append_extractLsb'_eq_extractLsb' (Nat.zero_add k).symm, BitVec.extractLsb'_eq_self]

theorem ofBool_getLsbD_zero (imm : Byte) : BitVec.ofBool (imm.getLsbD 0) = imm.extractLsb' 0 1 := by
  rw [← BitVec.setWidth_one, BitVec.setWidth_eq_extractLsb' (by decide)]

theorem decodePlain_eq_ok_iff : decodePlain imm j = .ok i ↔ imm = 0x00#8 ∧ j = i := by
  unfold decodePlain; split <;> simp [*]

/-- A gate operand that decodes has bits 7:1 clear and bit 0 the gate (R83, R86). -/
theorem gate_of_decodeGate (h : decodeGate imm = .ok i) : ∃ g, imm = 0#7 ++ BitVec.ofBool g ∧ i = .protSetgate g := by
  unfold decodeGate at h
  split at h
  next hz =>
    cases h
    refine ⟨_, ?_, rfl⟩
    rw [← hz, ofBool_getLsbD_zero]
    exact (extractLsb'_append_low (k := 1) (n := 7) imm).symm
  next => cases h

theorem code_of_decodeLawCode {code : BitVec 2} {law : Law} (h : decodeLawCode code = some law) : law.code = code := by
  revert law code; decide

/-- A law operand that decodes has bits 7:2 clear and bits 1:0 the law's code (R85, R86). -/
theorem law_of_decodeSetlaw (h : decodeSetlaw m imm = .ok i) :
    ∃ law : Law, imm = 0#6 ++ law.code ∧ i = .motSetlaw m law := by
  unfold decodeSetlaw at h
  split at h
  next hz =>
    split at h
    next law hl =>
      cases h
      refine ⟨law, ?_, rfl⟩
      rw [code_of_decodeLawCode hl, ← hz]
      exact (extractLsb'_append_low (k := 2) (n := 6) imm).symm
    next => cases h
  next => cases h

/-! ### From a decoded word back to its encoding -/

/-- A row without operands accepts the one word its operation encodes to (R87). -/
theorem encode_of_decodePlain (ho : op.toNat = n) (hj : encode j = commandWord unit (BitVec.ofNat 4 n) 0x00#8)
    (h : decodePlain imm j = .ok i) : encode i = commandWord unit op imm := by
  obtain ⟨rfl, rfl⟩ := decodePlain_eq_ok_iff.1 h
  rw [hj, ← ho, BitVec.ofNat_toNat, BitVec.setWidth_eq]

theorem encode_of_decodeCrc (h : decodeCrc op imm = .ok i) : encode i = commandWord 0x0#4 op imm := by
  unfold decodeCrc at h
  split at h
  case h_1 ho | h_3 ho => exact encode_of_decodePlain ho rfl h
  case h_2 ho => cases h; rw [BitVec.eq_of_toNat_eq (y := 0x1#4) ho]; rfl
  case h_4 => cases h

theorem encode_of_decodeProt (h : decodeProt op imm = .ok i) : encode i = commandWord 0x1#4 op imm := by
  unfold decodeProt at h
  split at h
  case h_1 ho => cases h; rw [BitVec.eq_of_toNat_eq (y := 0x0#4) ho]; rfl
  case h_2 ho | h_3 ho | h_5 ho | h_6 ho => exact encode_of_decodePlain ho rfl h
  case h_4 ho =>
    obtain ⟨g, rfl, rfl⟩ := gate_of_decodeGate h
    rw [BitVec.eq_of_toNat_eq (y := 0x3#4) ho]; rfl
  case h_7 => cases h

theorem encode_of_decodeSys (h : decodeSys op imm = .ok i) : encode i = commandWord 0x2#4 op imm := by
  unfold decodeSys at h
  split at h
  case h_1 ho | h_2 ho => exact encode_of_decodePlain ho rfl h
  case h_3 => cases h

theorem encode_of_decodeMot (h : decodeMot m op imm = .ok i) : encode i = commandWord m.unitCode op imm := by
  unfold decodeMot at h
  split at h
  case h_1 ho => cases h; rw [BitVec.eq_of_toNat_eq (y := 0x0#4) ho]; rfl
  case h_2 ho =>
    obtain ⟨law, rfl, rfl⟩ := law_of_decodeSetlaw h
    rw [BitVec.eq_of_toNat_eq (y := 0x1#4) ho]; rfl
  case h_3 ho | h_4 ho | h_5 ho | h_6 ho | h_7 ho | h_8 ho | h_9 ho => exact encode_of_decodePlain ho rfl h
  case h_10 => cases h

/-- A word whose UNIT is known is that unit's word with its other fields (R80). -/
theorem commandWord_of_unitField (hu : (unitField w).toNat = unit.toNat) :
    commandWord unit (opField w) (immField w) = w := by
  rw [← BitVec.eq_of_toNat_eq hu, commandWord_fields]

/-! ### The first ground of R88 -/

/-- The first ground of R88 that holds of a word, in the order of R90, as the tables say it. -/
def firstGround (w : Word) : Option ReservedWord :=
  if unitExists w then
    if opExists w then
      if immAllowed w then
        if lawAllowed w then none else some .law
      else some .imm
    else some .op
  else some .unit

/-- The ground the decoder names. -/
def groundOf : Except ReservedWord Instr → Option ReservedWord
  | .ok _ => none
  | .error g => some g

theorem groundOf_eq_some_iff {r : Except ReservedWord Instr} : groundOf r = some g ↔ r = .error g := by
  cases r <;> simp [groundOf]

theorem groundOf_eq_none_iff {r : Except ReservedWord Instr} : groundOf r = none ↔ ∃ i, r = .ok i := by
  cases r <;> simp [groundOf]

theorem groundOf_decodePlain (imm : Byte) (i : Instr) :
    groundOf (decodePlain imm i) = if imm.toNat < 1 then none else some .imm := by
  have hz : imm = 0x00#8 ↔ imm.toNat < 1 := by rw [Nat.lt_one_iff, ← BitVec.toNat_inj]; rfl
  simp only [decodePlain, hz]
  split <;> rfl

theorem groundOf_decodeGate : ∀ imm : Byte,
    groundOf (decodeGate imm) = if imm.toNat < 2 then none else some .imm := by
  decide

theorem groundOf_decodeSetlaw (m : Motor) : ∀ imm : Byte,
    groundOf (decodeSetlaw m imm) =
      if imm.toNat < 4 then if imm.toNat % 4 = 3 then some .law else none else some .imm := by
  cases m <;> decide

/-- The ground of a word of the row with this UNIT and OP, from its IMM8: an unused bit, then law 3 (R87, R88). -/
def rowGround (u o k : Nat) : Option ReservedWord :=
  if k < immLimit u o then
    if !(8 ≤ u && o == 1 && k % 4 == 3) then none else some .law
  else some .imm

theorem unitExists_of_unitField (hu : (unitField w).toNat = n) (hunit : [0, 1, 2, 8, 9, 10].contains n = true) :
    unitExists w = true := by
  rw [unitExists, unitNumber_eq, hu, hunit]

theorem firstGround_of_row {u o : Nat} (hu : (unitField w).toNat = u) (ho : (opField w).toNat = o)
    (hunit : [0, 1, 2, 8, 9, 10].contains u = true) (hop : o < opCount u) :
    firstGround w = rowGround u o (immField w).toNat := by
  have hopEx : opExists w = true := by rw [opExists, unitNumber_eq, opNumber_eq, hu, ho, decide_eq_true hop]
  rw [firstGround, if_pos (unitExists_of_unitField hu hunit), if_pos hopEx, immAllowed, lawAllowed, unitNumber_eq,
    opNumber_eq, immNumber_eq, hu, ho]
  simp only [rowGround, decide_eq_true_eq]

theorem firstGround_of_op {u : Nat} (hu : (unitField w).toNat = u) (hunit : [0, 1, 2, 8, 9, 10].contains u = true)
    (hop : opCount u ≤ (opField w).toNat) : firstGround w = some .op := by
  have hopEx : opExists w = false := by
    rw [opExists, unitNumber_eq, opNumber_eq, hu, decide_eq_false (Nat.not_lt.2 hop)]
  rw [firstGround, if_pos (unitExists_of_unitField hu hunit), hopEx, if_neg Bool.false_ne_true]

theorem rowGround_of_byte {u o : Nat} (imm : Byte) (hl : immLimit u o = 256) (ho : o ≠ 1 ∨ u < 8) :
    rowGround u o imm.toNat = none := by
  have hlaw : (8 ≤ u && o == 1 && imm.toNat % 4 == 3) = false := by grind
  rw [rowGround, hl, if_pos imm.isLt, hlaw]; rfl

theorem groundOf_decodeCrc (hu : (unitField w).toNat = 0) :
    groundOf (decodeCrc (opField w) (immField w)) = firstGround w := by
  unfold decodeCrc
  split
  case h_1 ho | h_3 ho => rw [groundOf_decodePlain, firstGround_of_row hu ho rfl (by decide)]; rfl
  case h_2 ho => rw [firstGround_of_row hu ho rfl (by decide), rowGround_of_byte _ rfl (by decide)]; rfl
  case h_4 => rw [firstGround_of_op hu rfl (by grind [opCount])]; rfl

theorem groundOf_decodeProt (hu : (unitField w).toNat = 1) :
    groundOf (decodeProt (opField w) (immField w)) = firstGround w := by
  unfold decodeProt
  split
  case h_1 ho => rw [firstGround_of_row hu ho rfl (by decide), rowGround_of_byte _ rfl (by decide)]; rfl
  case h_2 ho | h_3 ho | h_5 ho | h_6 ho =>
    rw [groundOf_decodePlain, firstGround_of_row hu ho rfl (by decide)]; rfl
  case h_4 ho => rw [groundOf_decodeGate, firstGround_of_row hu ho rfl (by decide)]; rfl
  case h_7 => rw [firstGround_of_op hu rfl (by grind [opCount])]; rfl

theorem groundOf_decodeSys (hu : (unitField w).toNat = 2) :
    groundOf (decodeSys (opField w) (immField w)) = firstGround w := by
  unfold decodeSys
  split
  case h_1 ho | h_2 ho => rw [groundOf_decodePlain, firstGround_of_row hu ho rfl (by decide)]; rfl
  case h_3 => rw [firstGround_of_op hu rfl (by grind [opCount])]; rfl

theorem groundOf_decodeMot (hu : (unitField w).toNat = m.unitCode.toNat) :
    groundOf (decodeMot m (opField w) (immField w)) = firstGround w := by
  have hunit : [0, 1, 2, 8, 9, 10].contains m.unitCode.toNat = true := by cases m <;> rfl
  have hcount : opCount m.unitCode.toNat = 9 := by cases m <;> rfl
  have hrow {o : Nat} (ho : (opField w).toNat = o) (hop : o < 9) :
      firstGround w = rowGround m.unitCode.toNat o (immField w).toNat := firstGround_of_row hu ho hunit (hcount ▸ hop)
  unfold decodeMot
  split
  case h_1 ho =>
    rw [hrow ho (by decide), rowGround_of_byte _ (by cases m <;> rfl) (.inl Nat.zero_ne_one)]; rfl
  case h_2 ho => rw [groundOf_decodeSetlaw, hrow ho (by decide)]; cases m <;> simp [rowGround, immLimit, Motor.unitCode]
  case h_3 ho | h_4 ho | h_5 ho | h_6 ho | h_7 ho | h_8 ho | h_9 ho =>
    rw [groundOf_decodePlain, hrow ho (by decide)]; cases m <;> rfl
  case h_10 => rw [firstGround_of_op hu hunit (by rw [hcount]; grind)]; rfl

/-- The decoder names the first ground of R88 that holds, and accepts a word on which none does. -/
theorem groundOf_decode (w : Word) : groundOf (decode w) = firstGround w := by
  unfold decode
  split
  case h_1 hu => exact groundOf_decodeCrc hu
  case h_2 hu => exact groundOf_decodeProt hu
  case h_3 hu => exact groundOf_decodeSys hu
  case h_4 hu | h_5 hu | h_6 hu => exact groundOf_decodeMot hu
  case h_7 h0 h1 h2 h8 h9 hA =>
    have hunit : unitExists w = false := by simp_all [unitExists, unitNumber_eq]
    rw [firstGround, hunit, if_neg Bool.false_ne_true]; rfl

theorem decode_eq_error_iff : decode w = .error g ↔ firstGround w = some g := by
  rw [← groundOf_eq_some_iff, groundOf_decode]

/-- A word decodes exactly when it is not reserved (R88). -/
theorem decode_ok_iff : (∃ i, decode w = .ok i) ↔ isReserved w = false := by
  rw [← groundOf_eq_none_iff, groundOf_decode, firstGround, isReserved, isOperation]
  split_ifs <;> simp [*]

/-! ### The obligations -/

/-- Settles O1: each operation's word goes to its unit's decoder, which reads its OP and its operand back. -/
theorem decodeEncodeAgree : Obligations.DecodeEncodeAgree := by
  intro i
  cases i with
  | crcInit | crcUpdate | crcRead => rw [encode, decode_crcWord]; rfl
  | protSetgate g => rw [encode, decode_protWord]; exact decodeGate_ofBool g
  | protRxpush | protDecode | protTake | protEncode | protTxdone => rw [encode, decode_protWord]; rfl
  | sysNop | sysStatus => rw [encode, decode_sysWord]; rfl
  | motSetlaw m law => rw [encode, decode_motWord]; exact decodeSetlaw_code m law
  | motSetsp | motTick | motDirect | motPd | motPid | motClim | motPlim | motAct =>
    rw [encode, decode_motWord]; rfl

/-- Settles O2: the unit's decoder determines OP and IMM8, and a word is its three fields. -/
theorem decodedWordIsItsEncoding : Obligations.DecodedWordIsItsEncoding := by
  intro w i h
  unfold decode at h
  split at h
  case h_1 hu => exact (encode_of_decodeCrc h).trans (commandWord_of_unitField hu)
  case h_2 hu => exact (encode_of_decodeProt h).trans (commandWord_of_unitField hu)
  case h_3 hu => exact (encode_of_decodeSys h).trans (commandWord_of_unitField hu)
  case h_4 hu | h_5 hu | h_6 hu => exact (encode_of_decodeMot h).trans (commandWord_of_unitField hu)
  case h_7 => cases h

/-- Settles O3: the decoder names the first ground that holds, so each answer is read off that ground. -/
theorem decoderNamesGroundOfReservedWord : Obligations.DecoderNamesGroundOfReservedWord := by
  intro w
  refine ⟨decode_ok_iff, ?_⟩
  simp only [decode_eq_error_iff, firstGround]
  split_ifs <;> simp [*]

/-- Settles O4, by running the decoder on the seven words. -/
theorem writtenOutWordsDecode : Obligations.WrittenOutWordsDecode := by
  unfold Obligations.WrittenOutWordsDecode; decide

/-- Settles O6: a reserved word does not decode, so the step raises ILLEGAL_CMD. -/
theorem reservedWordSetsIllegalCmdOnly : Obligations.ReservedWordSetsIllegalCmdOnly := by
  intro s c rest hp hres
  rw [Machine.step_of_command hp]
  rcases Machine.runWord_cases c.word { s with pending := rest, ports := c.ports } with ⟨i, hd, -⟩ | ⟨g, -, h⟩
  · have hok : isReserved c.word = false := decode_ok_iff.1 ⟨i, hd⟩
    cases hok.symm.trans hres
  · exact h

end Sys2Proof
end

section
/-! PROOFS. The layout of what the block sends and takes: CRC.BLOCK folds its bytes (R92, R115), a telemetry frame is
header, sample and CRC with the sample in the fixed group order (R98 to R100, R140), and PROT.DECODE stages a command
frame from MOTORDATA (R124 to R129) or after noise (R137). -/

namespace Sys2Proof.Machine

variable {s t : State} {f : CommandFrame}

/-! ### CRC.BLOCK -/

theorem execAll_cons_of_next {i : Instr} (is : List Instr) (h : exec i s = .next t) :
    execAll (i :: is) s = execAll is t := by
  rw [execAll, h]

/-- Settles O16, by induction on the bytes: each CRC.UPDATE is one step of the fold. -/
theorem crcBlockLeavesCrcOfBytes : Obligations.CrcBlockLeavesCrcOfBytes := by
  intro bytes
  induction bytes with
  | nil => intro s; rfl
  | cons b bytes ih =>
    intro s
    calc execAll (AsmLine.crcBlock (b :: bytes)).expand s
        = execAll (AsmLine.crcBlock bytes).expand { s with crc := crcStep s.crcTable s.crc b } :=
          execAll_cons_of_next _ rfl
      _ = .next { s with crc := crcSeq s.crcTable s.crc (b :: bytes) } := ih _

/-! ### The telemetry frame -/

theorem telemetryFrame_eq (c : Config) (table : Vector Word 256) (t : TelemetrySample) :
    telemetryFrame c table t = c.tlmHdr.toList ++ (serialize c t ++ crcBytes (frameCrc c table t)) :=
  List.append_assoc _ _ _

theorem take_telemetryFrame (c : Config) (table : Vector Word 256) (t : TelemetrySample) :
    (telemetryFrame c table t).take (4 + c.tlmLayout.bodyLen) = frameBody c t :=
  List.take_left' (frameBody_length c t)

theorem drop_telemetryFrame (c : Config) (table : Vector Word 256) (t : TelemetrySample) :
    (telemetryFrame c table t).drop (4 + c.tlmLayout.bodyLen) = crcBytes (frameCrc c table t) :=
  List.drop_left' (frameBody_length c t)

/-- Settles O19: the frame is its three parts, whose lengths are known. -/
theorem telemetryFrameLayout : Obligations.TelemetryFrameLayout := by
  intro c table t
  refine ⟨?_, ?_, ?_, frameCrc c table t, ?_, drop_telemetryFrame c table t⟩
  · rw [telemetryFrame, List.length_append, frameBody_length, crcBytes_length]; omega
  · rw [telemetryFrame_eq]; rfl
  · rw [telemetryFrame_eq]; exact List.take_left' (serialize_length c t)
  · rw [take_telemetryFrame, frameCrc]

/-- The three motors of group 4, one after the other (R99). -/
theorem motorBytes_flatMap (be : Bool) (l : TlmLayout) (t : TelemetrySample) :
    motorBytes be l (t.motor .m0) ++ motorBytes be l (t.motor .m1) ++ motorBytes be l (t.motor .m2) =
      [t.motor0, t.motor1, t.motor2].flatMap (motorBytes be l) := by
  simp [TelemetrySample.motor]

/-- Settles O21: a sample of the layout lists every element, so each group is the bytes of its list. -/
theorem serializeKeepsGroupOrder : Obligations.SerializeKeepsGroupOrder := by
  intro c t hfits
  obtain ⟨hvoltage, hcharge, hbank, -, haccel, hmag, hgyro, hdistance, hlight, hthermal, herror, hlast,
    hstatus⟩ := hfits
  rw [serialize, motorBytes_flatMap, groupBytes_eq_flatMap hvoltage.1, groupBytes_eq_flatMap hcharge.1,
    groupBytes_eq_flatMap hbank.1, groupBytes_eq_flatMap haccel.1, groupBytes_eq_flatMap hmag.1,
    groupBytes_eq_flatMap hgyro.1, groupBytes_eq_flatMap hdistance.1, groupBytes_eq_flatMap hlight.1,
    groupBytes_eq_flatMap hthermal.1, groupBytes_eq_flatMap herror.1, groupBytes_eq_flatMap hlast.1,
    groupBytes_eq_flatMap hstatus.1]
  rfl

/-! ### How a PROT.DECODE call ends -/

section
variable {p : PState} {rx : List Byte} {w : WorkFrame} {k : Nat}

/-- A PROT.DECODE call that completed a frame stages it and answers 0x8000 plus the bytes consumed (R102, R128). -/
theorem exec_protDecode_of_frame (hd : s.decodeEnd = ⟨p, rx, w, k, some f⟩) (hk : k < 32768) :
    exec .protDecode s = .next { s with
      pstate := p, rxFifo := rx, work := w, staged := f, stagedValid := true, rsp := BitVec.ofNat 16 (32768 + k) } := by
  rw [exec, execProtDecode, State.afterDecode, hd, response_eq hk]; rfl

/-- A PROT.DECODE call that completed none stages nothing and answers the bytes consumed (R102, R128). -/
theorem exec_protDecode_of_no_frame (hd : s.decodeEnd = ⟨p, rx, w, k, none⟩) (hk : k < 32768) :
    exec .protDecode s = .next { s with pstate := p, rxFifo := rx, work := w, rsp := BitVec.ofNat 16 k } := by
  have hrsp : DecodeRun.response ⟨p, rx, w, k, none⟩ = BitVec.ofNat 16 k := (response_eq hk).trans (by simp)
  rw [exec, execProtDecode, State.afterDecode, hd, hrsp]; rfl

end

/-! ### From MOTORDATA -/

section
variable {d0 d1 d2 d3 d4 : Byte} {rest : List Byte} (hp : s.pstate = .motorData)
  (hr : s.rxFifo = d0 :: d1 :: d2 :: d3 :: d4 :: rest) (hb : 5 ≤ s.cfg.decodeBound)
include hp hr hb

/-- In MOTORDATA the first iteration takes the five bytes, and the loop goes on with the rest (R124). -/
theorem decodeEnd_of_motorData :
    s.decodeEnd = parserLoop s.cfg (rest.length + 4) (if d4 = s.cfg.ledCustom then
        ⟨.ledData, rest, ⟨d0, d1, d2, d3, d4⟩, 5, none⟩
      else ⟨.header1, rest, ⟨d0, d1, d2, d3, d4⟩, 5, some ⟨d0, d1, d2, d3, d4, none⟩⟩) := by
  have hstep := parserStep_motor (c := s.cfg) (d := s.decodeStart) hp hr (by simp only [State.decodeStart]; omega)
  have hlen : s.rxFifo.length = rest.length + 4 + 1 := by rw [hr]; rfl
  rw [State.decodeEnd, hlen, parserLoop_succ _ rfl hstep]
  simp only [State.decodeStart, Nat.zero_add]

theorem decodeEnd_of_motorData_plain (h4 : d4 ≠ s.cfg.ledCustom) :
    s.decodeEnd = ⟨.header1, rest, ⟨d0, d1, d2, d3, d4⟩, 5, some ⟨d0, d1, d2, d3, d4, none⟩⟩ := by
  rw [decodeEnd_of_motorData hp hr hb, if_neg h4, parserLoop_of_frame _ rfl]

theorem decodeEnd_of_motorData_leds (h4 : d4 = s.cfg.ledCustom) (hl : 48 ≤ rest.length)
    (hb' : 53 ≤ s.cfg.decodeBound) :
    s.decodeEnd = ⟨.header1, rest.drop 48, ⟨d0, d1, d2, d3, d4⟩, 53,
      some ⟨d0, d1, d2, d3, d4, some (ledTriples (rest.take 48))⟩⟩ := by
  rw [decodeEnd_of_motorData hp hr hb, if_pos h4, parserLoop_succ _ rfl (parserStep_led rfl hl hb'),
    parserLoop_of_frame _ rfl]
  rfl

theorem decodeEnd_of_motorData_waits (h4 : d4 = s.cfg.ledCustom)
    (hx : rest.length < 48 ∨ s.cfg.decodeBound < 53) :
    s.decodeEnd = ⟨.ledData, rest, ⟨d0, d1, d2, d3, d4⟩, 5, none⟩ := by
  have hexit : parserStep s.cfg ⟨.ledData, rest, ⟨d0, d1, d2, d3, d4⟩, 5, none⟩ = none :=
    if_neg (c := 48 ≤ rest.length ∧ 5 + 48 ≤ s.cfg.decodeBound) (by omega)
  rw [decodeEnd_of_motorData hp hr hb, if_pos h4, parserLoop_of_exit _ hexit]

end

/-- The triples of the first 48 bytes, by byte number (R95, R125). -/
theorem ledTriples_take_get {l : List Byte} (hl : 48 ≤ l.length) :
    (ledTriples (l.take 48)).length = 16 ∧
    ∀ i < 16, (ledTriples (l.take 48))[i]? =
      some ⟨l.getD (3 * i) 0#8, l.getD (3 * i + 1) 0#8, l.getD (3 * i + 2) 0#8⟩ := by
  obtain ⟨hlen, hget⟩ := ledTriples_get 16 (l.take 48) (by rw [List.length_take]; omega)
  have htake {j : Nat} (hj : j < 48) : (l.take 48).getD j 0#8 = l.getD j 0#8 := by
    rw [List.getD_eq_getElem?_getD, List.getElem?_take_of_lt hj, ← List.getD_eq_getElem?_getD]
  refine ⟨hlen, fun i hi => ?_⟩
  rw [hget i hi, htake (by omega), htake (by omega), htake (by omega)]

/-- Settles O26: the three ways the loop ends from MOTORDATA, written back to the state. -/
theorem motorDataStagesOrAwaitsLeds : Obligations.MotorDataStagesOrAwaitsLeds := by
  intro s d0 d1 d2 d3 d4 rest hp hr hb
  refine ⟨fun h4 => exec_protDecode_of_frame (decodeEnd_of_motorData_plain hp hr hb h4) (by decide),
    fun h4 hl hb' => ?_,
    fun h4 hx => exec_protDecode_of_no_frame (decodeEnd_of_motorData_waits hp hr hb h4 hx) (by decide)⟩
  obtain ⟨hlen, hget⟩ := ledTriples_take_get hl
  exact ⟨_, hlen, hget, exec_protDecode_of_frame (decodeEnd_of_motorData_leds hp hr hb h4 hl hb') (by decide)⟩

/-! ### After noise -/

/-- The loop over noise that leaves the scan in HEADER1 and a whole frame (R122 to R125, R137): the noise, the header
and the payload in turn. -/
theorem decodeEnd_of_noise_frame {noise rest : List Byte} (hf : f.Wf s.cfg)
    (hr : s.rxFifo = noise ++ f.bytes s.cfg ++ rest) (hs : scanHeader s.cfg s.pstate noise = some .header1)
    (hb : noise.length + (f.bytes s.cfg).length ≤ s.cfg.decodeBound) :
    s.decodeEnd = ⟨.header1, rest, ⟨f.motorMode, f.m1, f.m2, f.m3, f.ledMode⟩,
      noise.length + (f.bytes s.cfg).length, some f⟩ := by
  have hbytes : (f.bytes s.cfg).length = 4 + f.payload.length := by rw [CommandFrame.bytes, List.length_append]; rfl
  have hpayload : 2 ≤ f.payload.length := by simp [CommandFrame.payload]
  obtain ⟨n, hn⟩ : ∃ n, s.rxFifo.length = noise.length + (n + 2 + 4) :=
    ⟨f.payload.length - 2 + rest.length, by rw [hr, List.length_append, List.length_append]; omega⟩
  rw [CommandFrame.bytes, List.append_assoc, List.append_assoc] at hr
  rw [State.decodeEnd, hn,
    parserLoop_scan _ _ _ noise s.decodeStart hs hr (by simp only [State.decodeStart]; omega) rfl,
    parserLoop_header _ _ _ rfl rfl (by simp only [State.decodeStart]; omega) rfl,
    parserLoop_payload f hf rest n _ rfl rfl (by simp only [State.decodeStart]; omega) rfl]
  simp [State.decodeStart, hbytes, Nat.add_assoc]

/-- Settles O30: the loop ends with the frame, and DECODE_BOUND keeps the byte count within rsp's 15 bits (R9). -/
theorem parserResynchronisesAfterNoise : Obligations.ParserResynchronisesAfterNoise := by
  intro s noise rest f hwf hf hr hs hb
  obtain ⟨⟨-, hcap⟩, ⟨-, hbound⟩, -⟩ := hwf
  have hcount : noise.length + (f.bytes s.cfg).length < 32768 := by omega
  rw [exec_protDecode_of_frame (decodeEnd_of_noise_frame hf hr hs hb) hcount, Nat.add_assoc]

end Sys2Proof.Machine
end

section
/-! PROOFS. The CRC unit: its three operations, each by its word (R80, R82) and its effect (R110 to R114), and the CRC of
a sequence followed by its own CRC over a generated table (R116). -/

namespace Sys2Proof.Machine

variable {s : State}

/-! ### The words of the CRC unit -/

theorem encode_crcInit : encode .crcInit = 0x0000#16 := by decide

theorem encode_crcUpdate (b : Byte) : encode (.crcUpdate b) = BitVec.ofNat 16 (0x0100 + b.toNat) := by
  apply BitVec.eq_of_toNat_eq
  rw [encode, commandWord_toNat, BitVec.toNat_ofNat, BitVec.toNat_ofNat, BitVec.toNat_ofNat]
  omega

theorem encode_crcRead : encode .crcRead = 0x0200#16 := by decide

/-! ### Their effects -/

theorem exec_crcInit : exec .crcInit s = .next { s with crc := s.cfg.crcInit } := rfl

theorem exec_crcUpdate (b : Byte) : exec (.crcUpdate b) s = .next { s with crc := crcStep s.crcTable s.crc b } := rfl

theorem exec_crcRead : exec .crcRead s = .next { s with rsp := s.crc } := rfl

/-- CrcStep in numbers (R110): the register times 256 modulo 2^16, and the table entry at its high byte xor b. -/
theorem crcStep_eq_toNat (table : Vector Word 256) (v : Word) (b : Byte) :
    crcStep table v b = BitVec.ofNat 16 (v.toNat * 256) ^^^ table.toList.getD (v.toNat / 256 ^^^ b.toNat) 0#16 := by
  have hshift : v <<< 8 = BitVec.ofNat 16 (v.toNat * 256) := by
    rw [BitVec.ofNat_mul, BitVec.ofNat_toNat, BitVec.setWidth_eq]
    exact BitVec.shiftLeft_eq_mul_twoPow v 8
  have hindex : (v.extractLsb' 8 8 ^^^ b).toNat = v.toNat / 256 ^^^ b.toNat := by
    have hhigh : v.toNat / 256 < 256 := by omega
    rw [BitVec.toNat_xor, BitVec.extractLsb'_toNat, Nat.shiftRight_eq_div_pow, Nat.mod_eq_of_lt hhigh]
  have hlt : (v.extractLsb' 8 8 ^^^ b).toNat < table.toList.length := by rw [Vector.length_toList]; omega
  rw [crcStep, hshift, ← hindex, List.getD_eq_getElem _ _ hlt, Vector.getElem_toList]

/-! ### The obligations about the operations -/

/-- Settles O13: the word is the encoder's, and the effect is the meaning of CRC.INIT. -/
theorem crcInitLoadsInitialValue : Obligations.CrcInitLoadsInitialValue :=
  ⟨encode_crcInit ▸ decodeEncodeAgree .crcInit, fun _ => exec_crcInit⟩

/-- Settles O14: the word is the encoder's, and the effect is CrcStep in numbers. -/
theorem crcUpdateUsesTableEntry : Obligations.CrcUpdateUsesTableEntry := by
  intro b s
  refine ⟨encode_crcUpdate b ▸ decodeEncodeAgree (.crcUpdate b), ?_⟩
  rw [exec_crcUpdate, crcStep_eq_toNat]

/-- Settles O15: the word is the encoder's, and the effect is the meaning of CRC.READ. -/
theorem crcReadAnswersCrc : Obligations.CrcReadAnswersCrc :=
  ⟨encode_crcRead ▸ decodeEncodeAgree .crcRead, fun _ => exec_crcRead⟩

/-! ### A sequence followed by its own CRC -/

/-- The low byte of a word is the high byte of the word shifted up by a byte. -/
theorem extractLsb'_shiftLeft_byte (v : Word) : (v <<< 8).extractLsb' 8 8 = v.extractLsb' 0 8 := by
  apply BitVec.eq_of_toNat_eq
  simp only [BitVec.extractLsb'_toNat, BitVec.toNat_shiftLeft, Nat.shiftLeft_eq, Nat.shiftRight_eq_div_pow]
  omega

/-- Over a generated table, a register followed by its own two bytes, high byte first, ends at 0: each byte meets
entry 0 of the table and only shifts the register (R116). -/
theorem crcSeq_crcBytes (poly v : Word) : crcSeq (generatedTable poly) v (crcBytes v) = 0x0000#16 :=
  calc crcSeq (generatedTable poly) v (crcBytes v)
      = crcStep (generatedTable poly) (crcStep (generatedTable poly) v (v.extractLsb' 8 8)) (v.extractLsb' 0 8) := rfl
    _ = crcStep (generatedTable poly) (v <<< 8) ((v <<< 8).extractLsb' 8 8) := by
        rw [crcStep_highByte, extractLsb'_shiftLeft_byte]
    _ = (v <<< 8) <<< 8 := crcStep_highByte _ _
    _ = v <<< 16 := (BitVec.shiftLeft_add v 8 8).symm
    _ = 0x0000#16 := BitVec.shiftLeft_eq_zero (le_refl 16)

/-- Settles O17: the register after the sequence is the CRC whose two bytes follow. -/
theorem appendedCrcLeavesZero : Obligations.AppendedCrcLeavesZero := by
  intro poly start bytes
  rw [crcSeq_append, crcSeq_crcBytes]

end Sys2Proof.Machine
end

section
/-! PROOFS. The operations of the protocol unit besides PROT.DECODE, each by its word (R80, R83) and its effect:
PROT.RXPUSH (R120), PROT.TAKE through the gate (R132 to R135), PROT.SETGATE (R134), PROT.ENCODE (R141 to R143) and
PROT.TXDONE (R144). -/

namespace Sys2Proof.Machine

variable {s : State}

/-! ### The words of the protocol unit -/

theorem encode_protRxpush (b : Byte) : encode (.protRxpush b) = BitVec.ofNat 16 (0x1000 + b.toNat) := by
  apply BitVec.eq_of_toNat_eq
  rw [encode, commandWord_toNat, BitVec.toNat_ofNat, BitVec.toNat_ofNat, BitVec.toNat_ofNat]
  omega

theorem encode_protTake : encode .protTake = 0x1200#16 := by decide

theorem encode_protSetgate_false : encode (.protSetgate false) = 0x1300#16 := by decide

theorem encode_protSetgate_true : encode (.protSetgate true) = 0x1301#16 := by decide

theorem encode_protEncode : encode .protEncode = 0x1400#16 := by decide

theorem encode_protTxdone : encode .protTxdone = 0x1500#16 := by decide

/-- A word of PROT.SETGATE that sets one of IMM8[7:1] sets a bit the operation does not use (R86, R87). -/
theorem isReserved_setgate {imm : Byte} (h : 2 ≤ imm.toNat) :
    isReserved (BitVec.ofNat 16 (0x1300 + imm.toNat)) = true := by
  have hword : (BitVec.ofNat 16 (0x1300 + imm.toNat)).toNat = 0x1300 + imm.toNat := by
    rw [BitVec.toNat_ofNat]; omega
  have hunit : unitNumber (BitVec.ofNat 16 (0x1300 + imm.toNat)) = 1 := by rw [unitNumber, hword]; omega
  have hop : opNumber (BitVec.ofNat 16 (0x1300 + imm.toNat)) = 3 := by rw [opNumber, hword]; omega
  have himm : immNumber (BitVec.ofNat 16 (0x1300 + imm.toNat)) = imm.toNat := by rw [immNumber, hword]; omega
  have hlimit : immAllowed (BitVec.ofNat 16 (0x1300 + imm.toNat)) = false := by
    rw [immAllowed, hunit, hop, himm]
    exact decide_eq_false (not_lt.2 h)
  rw [isReserved, isOperation, hlimit, Bool.and_false, Bool.false_and]; rfl

/-! ### PROT.RXPUSH -/

theorem exec_protRxpush_of_room (b : Byte) (h : s.rxFifo.length < s.cfg.rxBufCap) :
    exec (.protRxpush b) s = .next { s with rxFifo := s.rxFifo ++ [b] } := by
  rw [exec, execProtRxpush, if_pos h, State.pushRx]

theorem exec_protRxpush_of_full (b : Byte) (h : s.cfg.rxBufCap ≤ s.rxFifo.length) :
    exec (.protRxpush b) s = .next { s with rxOverflow := true } := by
  rw [exec, execProtRxpush, if_neg (not_lt.2 h), raiseFault_rxOverflow]

/-! ### PROT.TAKE -/

/-- The gate (R132, R133): open while commands are enabled, and always for the enable codes. -/
theorem forwards_iff : s.forwards = true ↔
    s.cmdDisabled = false ∨ s.staged.motorMode ∈ [s.cfg.modeEnCharging, s.cfg.modeEnVref, s.cfg.modeEnAmp] := by
  simp [State.forwards, motorPasses, or_assoc]

theorem forwards_eq_false_iff : s.forwards = false ↔
    s.cmdDisabled = true ∧ s.staged.motorMode ∉ [s.cfg.modeEnCharging, s.cfg.modeEnVref, s.cfg.modeEnAmp] := by
  rw [← Bool.not_eq_true, forwards_iff, not_or, Bool.not_eq_false]

/-- rsp of PROT.TAKE as a number (R102): bit 15, bit 14 when forwarded, and the motor_mode. -/
theorem takeResponse_eq (s : State) :
    s.takeResponse = BitVec.ofNat 16 ((if s.forwards then 0xC000 else 0x8000) + s.staged.motorMode.toNat) := by
  apply BitVec.eq_of_toNat_eq
  rw [State.takeResponse, BitVec.toNat_append, ← Nat.shiftLeft_add_eq_or_of_lt s.staged.motorMode.isLt,
    Nat.shiftLeft_eq, BitVec.toNat_ofNat]
  cases s.forwards <;> simp <;> omega

theorem exec_protTake_of_empty (h : s.stagedValid = false) :
    exec .protTake s = .next { s with rsp := 0x0000#16 } := by
  rw [exec, execProtTake, if_neg (Bool.eq_false_iff.1 h), State.respond]

theorem exec_protTake_of_forwards (h : s.stagedValid = true) (hg : s.forwards = true) :
    exec .protTake s = .next { s with
      stagedValid := false
      cmdOut := s.cmdOut ++ [⟨.forward s.staged.motorMode s.staged.m1 s.staged.m2 s.staged.m3,
        s.staged.ledMode, s.staged.ledData⟩]
      rsp := BitVec.ofNat 16 (0xC000 + s.staged.motorMode.toNat) } := by
  rw [exec, execProtTake, if_pos h, takeResponse_eq, State.takeEvent, hg]; rfl

theorem exec_protTake_of_suppressed (h : s.stagedValid = true) (hg : s.forwards = false) :
    exec .protTake s = .next { s with
      stagedValid := false
      cmdOut := s.cmdOut ++ [⟨.suppressed, s.staged.ledMode, s.staged.ledData⟩]
      rsp := BitVec.ofNat 16 (0x8000 + s.staged.motorMode.toNat) } := by
  rw [exec, execProtTake, if_pos h, takeResponse_eq, State.takeEvent, hg]; rfl

/-! ### PROT.SETGATE, PROT.ENCODE and PROT.TXDONE -/

theorem exec_protSetgate (g : Bool) : exec (.protSetgate g) s = .next { s with cmdDisabled := g } := rfl

theorem exec_protEncode_of_busy (h : s.txBusy = true) : exec .protEncode s = .next { s with rsp := 0x0000#16 } := by
  rw [exec, execProtEncode, if_pos h, State.respond]

theorem exec_protEncode_of_idle (h : s.txBusy = false) : exec .protEncode s = .next s.buildFrame := by
  rw [exec, execProtEncode, if_neg (Bool.eq_false_iff.1 h)]

theorem exec_protTxdone : exec .protTxdone s = .next { s with txBusy := false } := rfl

/-! ### The obligations -/

/-- Settles O24: the word is the encoder's, and PROT.RXPUSH compares rx_fifo with its capacity. -/
theorem rxpushAppendsOrOverflows : Obligations.RxpushAppendsOrOverflows := fun b _ =>
  ⟨encode_protRxpush b ▸ decodeEncodeAgree (.protRxpush b), exec_protRxpush_of_room b, exec_protRxpush_of_full b⟩

/-- Settles O33: the word is the encoder's; an empty stage, an open gate and a closed gate are the three ways. -/
theorem takeForwardsThroughGate : Obligations.TakeForwardsThroughGate := fun _ =>
  ⟨encode_protTake ▸ decodeEncodeAgree .protTake, exec_protTake_of_empty, fun hv =>
    ⟨fun hg => exec_protTake_of_forwards hv (forwards_iff.2 hg),
      fun hg => exec_protTake_of_suppressed hv (forwards_eq_false_iff.2 hg)⟩⟩

/-- Settles O34: the two words are the encoder's, and a word with a greater IMM8 sets an unused bit. -/
theorem setgateWritesGate : Obligations.SetgateWritesGate :=
  ⟨encode_protSetgate_false ▸ decodeEncodeAgree (.protSetgate false),
    encode_protSetgate_true ▸ decodeEncodeAgree (.protSetgate true),
    fun _ => isReserved_setgate, fun g _ => exec_protSetgate g⟩

/-- Settles O18: the word is the encoder's, and the frame built is the body and the two bytes of its CRC. -/
theorem encodeBuildsFrameUnlessBusy : Obligations.EncodeBuildsFrameUnlessBusy := by
  rintro s body crc rfl rfl
  exact ⟨encode_protEncode ▸ decodeEncodeAgree .protEncode, exec_protEncode_of_busy, exec_protEncode_of_idle⟩

/-- Settles O22: the word is the encoder's, and the effect is the meaning of PROT.TXDONE. -/
theorem txdoneClearsBusy : Obligations.TxdoneClearsBusy :=
  ⟨encode_protTxdone ▸ decodeEncodeAgree .protTxdone, fun _ => exec_protTxdone⟩

end Sys2Proof.Machine
end

section
/-! PROOFS. What one PROT.DECODE call does (R122 to R128): a header byte, a led field, a call without a whole field, and
for every state how many bytes it consumes and why it ends. -/

namespace Sys2Proof.Machine

variable {c : Config} {d : DecodeRun} {s : State}

/-! ### A call of one field -/

/-- In a header state with one byte to read, the call is one iteration (R122, R123). -/
theorem decodeEnd_of_headerByte {b want : Byte} {after : PState}
    (he : headerExpect s.cfg s.pstate = some (want, after)) (hr : s.rxFifo = [b]) (hb : 1 ≤ s.cfg.decodeBound) :
    s.decodeEnd = ⟨headerStep s.cfg s.pstate want after b, [], s.work, 1, none⟩ := by
  have hstep := parserStep_header (d := s.decodeStart) he hr (by rwa [State.decodeStart, Nat.zero_add])
  have hlen : s.rxFifo.length = 0 + 1 := by rw [hr]; rfl
  rw [State.decodeEnd, hlen, parserLoop_succ _ rfl hstep, parserLoop]
  rfl

/-- In LEDDATA with 48 bytes to read, the call is one iteration, which stages the work frame (R125, R129). -/
theorem decodeEnd_of_ledData (hp : s.pstate = .ledData) (hl : 48 ≤ s.rxFifo.length) (hb : 48 ≤ s.cfg.decodeBound) :
    s.decodeEnd = ⟨.header1, s.rxFifo.drop 48, s.work, 48,
      some (s.work.toFrame (some (ledTriples (s.rxFifo.take 48))))⟩ := by
  have hstep := parserStep_led (d := s.decodeStart) hp hl (by rwa [State.decodeStart, Nat.zero_add])
  obtain ⟨n, hn⟩ : ∃ n, s.rxFifo.length = n + 1 := ⟨s.rxFifo.length - 1, by omega⟩
  rw [State.decodeEnd, hn, parserLoop_succ _ rfl hstep, parserLoop_of_frame _ rfl]
  rfl

/-- Without a whole field to read an iteration exits (R126). -/
theorem parserStep_eq_none_of_shortage
    (h : d.rx = [] ∨ (d.pstate = .motorData ∧ d.rx.length < 5) ∨ (d.pstate = .ledData ∧ d.rx.length < 48)) :
    parserStep c d = none := by
  rcases parserStep_cases c d with ⟨hnone, -⟩ | ⟨want, after, b, rest, he, hr, -⟩ |
    ⟨d0, d1, d2, d3, d4, rest, hp, hr, -⟩ | ⟨hp, hl, -⟩
  · exact hnone
  · have hheader := (headerExpect_eq_none (c := c) (p := d.pstate)).not.1 (by rw [he]; exact Option.some_ne_none _)
    simp only [hr, reduceCtorEq, false_or] at h
    exact absurd (h.imp And.left And.left) hheader
  · simp only [hr, hp, List.length_cons, reduceCtorEq, false_and, or_false, true_and, false_or] at h
    omega
  · rcases h with h | ⟨h, -⟩ | ⟨-, h⟩
    · simp [h] at hl
    · cases hp.symm.trans h
    · omega

/-! ### How every call ends -/

/-- A call keeps its count within DECODE_BOUND, and has completed no frame until it is back in HEADER1 with one. -/
theorem decodeEnd_bounded (s : State) : s.decodeEnd.consumed ≤ s.cfg.decodeBound ∧
    (s.decodeEnd.frame = none ∨ s.decodeEnd.frame.isSome ∧ s.decodeEnd.pstate = .header1) := by
  refine parserLoop_induction
    (fun d => d.consumed ≤ s.cfg.decodeBound ∧ (d.frame = none ∨ d.frame.isSome ∧ d.pstate = .header1))
    (fun d d' _ hf hs => ?_) _ _ ⟨Nat.zero_le _, .inl rfl⟩
  obtain ⟨_, _, _, _, _, hbound, hframe⟩ := parserStep_consumes hs
  exact ⟨hbound, hframe.imp_left fun h => h.trans hf⟩

/-- A call consumes the front of rx_fifo, and ends because it completed a frame or because an iteration exits. -/
theorem decodeEnd_ends (s : State) : (s.decodeEnd.frame.isSome ∨ parserStep s.cfg s.decodeEnd = none) ∧
    s.decodeEnd.consumed ≤ s.rxFifo.length ∧ s.decodeEnd.rx = s.rxFifo.drop s.decodeEnd.consumed := by
  obtain ⟨hend, k, hk, hrx, hcount⟩ := parserLoop_ends (c := s.cfg) s.rxFifo.length s.decodeStart le_rfl
  have hconsumed : s.decodeEnd.consumed = k := hcount.trans (Nat.zero_add k)
  rw [hconsumed]
  exact ⟨hend, hk, hrx⟩

/-- An iteration that exits lacks a whole field or would pass DECODE_BOUND (R126, R127). -/
theorem shortage_of_parserStep_eq_none (h : parserStep c d = none) :
    match d.pstate with
      | .motorData => d.rx.length < 5 ∨ c.decodeBound < d.consumed + 5
      | .ledData => d.rx.length < 48 ∨ c.decodeBound < d.consumed + 48
      | _ => d.rx = [] ∨ c.decodeBound < d.consumed + 1 := by
  rcases parserStep_cases c d with ⟨-, hshort⟩ | ⟨_, _, _, _, _, _, _, hs⟩ | ⟨_, _, _, _, _, _, _, _, _, hs⟩ |
    ⟨_, _, _, hs⟩
  · exact hshort
  all_goals cases hs.symm.trans h

/-- Bits 14:0 of rsp are the bytes consumed (R102). -/
theorem response_toNat_mod (h : d.consumed < 32768) : d.response.toNat % 32768 = d.consumed := by
  rw [response_eq h, BitVec.toNat_ofNat]
  split <;> omega

/-! ### The obligations -/

/-- Settles O25: the one byte is one iteration, and the four header states await the four header bytes. -/
theorem headerByteAdvancesOrResyncs : Obligations.HeaderByteAdvancesOrResyncs := by
  intro s b want p after hmem hp hr hb
  have he : headerExpect s.cfg s.pstate = some (want, after) := by
    simp only [List.mem_cons, List.not_mem_nil, or_false, Prod.mk.injEq] at hmem
    rcases hmem with ⟨rfl, rfl, rfl⟩ | ⟨rfl, rfl, rfl⟩ | ⟨rfl, rfl, rfl⟩ | ⟨rfl, rfl, rfl⟩ <;> rw [hp] <;> rfl
  rw [exec_protDecode_of_no_frame (decodeEnd_of_headerByte he hr hb) (by decide), hp]
  rfl

/-- Settles O27: the call is the one iteration in LEDDATA, and its 48 bytes are 16 triples. -/
theorem ledDataStagesTriples : Obligations.LedDataStagesTriples := by
  intro s hp hl hb
  obtain ⟨hlen, hget⟩ := ledTriples_take_get hl
  exact ⟨_, hlen, hget, exec_protDecode_of_frame (decodeEnd_of_ledData hp hl hb) (by decide)⟩

/-- Settles O28: the first iteration exits, so the call ends as it started. -/
theorem decodeWaitsForWholeField : Obligations.DecodeWaitsForWholeField := by
  intro s h
  have hend : s.decodeEnd = s.decodeStart := parserLoop_of_exit _ (parserStep_eq_none_of_shortage h)
  exact exec_protDecode_of_no_frame hend (by decide)

/-- Settles O29: the count and the reason for the end are the loop's; the flag in rsp is whether it has a frame. -/
theorem decodeEndsAtFrameOrShortage : Obligations.DecodeEndsAtFrameOrShortage := by
  intro s hfits
  obtain ⟨hbound, hframe⟩ := decodeEnd_bounded s
  obtain ⟨hend, hlen, hrx⟩ := decodeEnd_ends s
  refine ⟨s.afterDecode s.decodeEnd, s.decodeEnd.consumed, rfl, hbound, hlen, ?_, ?_, ?_, ?_, ?_⟩
  · rw [afterDecode_rxFifo, hrx]
  · exact response_toNat_mod (by omega)
  · simpa using afterDecode_frame s s.decodeEnd
  · rw [afterDecode_rsp, response_msb, afterDecode_stagedValid, afterDecode_pstate]
    intro hsome
    have hnone : s.decodeEnd.frame ≠ none := Option.isSome_iff_ne_none.1 hsome
    exact ⟨by rw [hsome, Bool.true_or], (hframe.resolve_left hnone).2⟩
  · rw [afterDecode_rsp, response_msb, afterDecode_staged, afterDecode_stagedValid, afterDecode_pstate,
      afterDecode_rxFifo]
    intro hnone
    have hexit := hend.resolve_left (by rw [hnone]; exact Bool.false_ne_true)
    rw [Option.isSome_eq_false_iff, Option.isNone_iff_eq_none] at hnone
    rw [hnone]
    exact ⟨rfl, rfl, shortage_of_parserStep_eq_none hexit⟩

end Sys2Proof.Machine
end

section
/-! PROOFS. Noise on the wire (R136, R137). Noise without a header, and without the start of one at its end, leaves the
scan in HEADER1: the parser is never further into the header than the bytes behind it are. A frame that follows such
noise is staged by repeated calls: what lies ahead of the parser (`FrameAhead`) is kept by every iteration, so it does
not matter where DECODE_BOUND cuts the stream, and every call takes at least one field. -/

namespace Sys2Proof.Machine

variable {c : Config} {f : CommandFrame} {rest : List Byte} {s : State}

/-! ### Header bytes behind the parser -/

/-- How many header bytes the parser has behind it: n - 1 in HEADERn, all four past the header (R122). -/
def PState.headerBytes : PState → Nat
  | .header1 => 0
  | .header2 => 1
  | .header3 => 2
  | .header4 => 3
  | .motorData => 4
  | .ledData => 4

theorem headerBytes_of_headerExpect_eq_none {p : PState} (h : headerExpect c p = none) : p.headerBytes = 4 := by
  rcases headerExpect_eq_none.1 h with rfl | rfl <;> rfl

/-- The byte a header state awaits is the next one of the header. -/
theorem take_headerBytes_of_headerExpect {p after : PState} {want : Byte} (h : headerExpect c p = some (want, after)) :
    c.cmdHdr.toList.take after.headerBytes = c.cmdHdr.toList.take p.headerBytes ++ [want] := by
  cases p <;> cases h <;> rfl

/-- One byte keeps the header bytes behind the parser (R122): it is the next of them, or the parser is in HEADER1. -/
theorem headerStep_keeps_suffix (hre : c.resyncRecheck = false) {p after : PState} {want b : Byte} {seen : List Byte}
    (he : headerExpect c p = some (want, after)) (h : c.cmdHdr.toList.take p.headerBytes <:+ seen) :
    c.cmdHdr.toList.take (headerStep c p want after b).headerBytes <:+ seen ++ [b] := by
  by_cases hb : b = want
  · obtain ⟨front, rfl⟩ := h
    rw [headerStep, if_pos hb, take_headerBytes_of_headerExpect he, hb]
    exact ⟨front, (List.append_assoc _ _ _).symm⟩
  · rw [headerStep, if_neg hb, if_neg (by simp [hre])]
    exact List.nil_suffix

/-- A parser past the header has a whole header behind it. -/
theorem header_isInfix_of_headerBytes {p : PState} {seen more : List Byte} (hp : p.headerBytes = 4)
    (h : c.cmdHdr.toList.take p.headerBytes <:+ seen) : c.cmdHdr.toList <:+: seen ++ more := by
  rw [hp] at h
  exact h.isInfix.trans (List.prefix_append seen more).isInfix

/-- A scan over bytes without a header completes none, and has behind it the header bytes of the state it ends in. -/
theorem scanHeader_of_header_free (hre : c.resyncRecheck = false) :
    ∀ (noise seen : List Byte) (p : PState), ¬ c.cmdHdr.toList <:+: seen ++ noise →
      c.cmdHdr.toList.take p.headerBytes <:+ seen →
      ∃ q, scanHeader c p noise = some q ∧ c.cmdHdr.toList.take q.headerBytes <:+ seen ++ noise
  | [], seen, p, _, h => ⟨p, rfl, by rwa [List.append_nil]⟩
  | b :: noise, seen, p, hfree, h => by
    cases he : headerExpect c p with
    | none => exact absurd (header_isInfix_of_headerBytes (headerBytes_of_headerExpect_eq_none he) h) hfree
    | some r =>
      obtain ⟨want, after⟩ := r
      have hseen := headerStep_keeps_suffix hre (b := b) he h
      rw [List.append_cons] at hfree ⊢
      have hnot : headerStep c p want after b ≠ .motorData := fun hm =>
        hfree (header_isInfix_of_headerBytes (by rw [hm]; rfl) hseen)
      obtain ⟨q, hq, hsuffix⟩ := scanHeader_of_header_free hre noise (seen ++ [b]) _ hfree hseen
      exact ⟨q, by rw [scanHeader, he]; exact (if_neg hnot).trans hq, hsuffix⟩

/-- Settles O31: the noise ends with the header bytes of the state the scan ends in, so these are none. -/
theorem headerFreeNoiseEndsInHeader1 : Obligations.HeaderFreeNoiseEndsInHeader1 := by
  intro c noise hre hfree hprefix
  obtain ⟨q, hq, hsuffix⟩ := scanHeader_of_header_free hre noise [] .header1 hfree List.nil_suffix
  rw [List.nil_append] at hsuffix
  rw [hq]
  cases q with
  | header1 => rfl
  | header2 => exact absurd hsuffix (hprefix 1 (by decide) (by decide))
  | header3 => exact absurd hsuffix (hprefix 2 (by decide) (by decide))
  | header4 => exact absurd hsuffix (hprefix 3 (by decide) (by decide))
  | motorData | ledData => exact absurd hsuffix.isInfix hfree

/-! ### The frame ahead of the parser -/

/-- The bytes to read take the parser, from its state and work frame, through the rest of a header and the fields of
`f`, and leave `rest`. -/
inductive FrameAhead (c : Config) (f : CommandFrame) (rest : List Byte) : PState → WorkFrame → List Byte → Prop
  | header {p after : PState} {want b : Byte} {w : WorkFrame} {rx : List Byte}
      (he : headerExpect c p = some (want, after)) (next : FrameAhead c f rest (headerStep c p want after b) w rx) :
      FrameAhead c f rest p w (b :: rx)
  | motor {w : WorkFrame} : FrameAhead c f rest .motorData w (f.payload ++ rest)
  | leds {leds : List Rgb} (hl : f.ledData = some leds) :
      FrameAhead c f rest .ledData ⟨f.motorMode, f.m1, f.m2, f.m3, f.ledMode⟩ (leds.flatMap Rgb.bytes ++ rest)

/-- A byte that is the one awaited leaves the frame ahead of the state after it. -/
theorem FrameAhead.of_want {p after : PState} {want : Byte} {w : WorkFrame} {rx : List Byte}
    (he : headerExpect c p = some (want, after)) (h : FrameAhead c f rest after w rx) :
    FrameAhead c f rest p w (want :: rx) :=
  .header he (by rwa [headerStep, if_pos rfl])

/-- In HEADER1 the bytes of a frame are ahead (R93). -/
theorem FrameAhead.of_bytes (w : WorkFrame) : FrameAhead c f rest .header1 w (f.bytes c ++ rest) :=
  .of_want rfl (.of_want rfl (.of_want rfl (.of_want rfl .motor)))

/-- Noise that the scan takes to `q` may stand before what is ahead of `q` (R122, R123). -/
theorem FrameAhead.of_noise {q : PState} {w : WorkFrame} {rx : List Byte} (h : FrameAhead c f rest q w rx) :
    ∀ (noise : List Byte) (p : PState), scanHeader c p noise = some q → FrameAhead c f rest p w (noise ++ rx)
  | [], p, hs => by cases hs; exact h
  | b :: noise, p, hs => by
    unfold scanHeader at hs
    split at hs
    next want after he =>
      split at hs
      · cases hs
      · exact .header he (h.of_noise noise _ hs)
    next => cases hs

/-! ### What a frame ahead says in each state -/

theorem FrameAhead.of_headerStep {p after : PState} {want b : Byte} {w : WorkFrame} {rx rx' : List Byte}
    (h : FrameAhead c f rest p w rx) (he : headerExpect c p = some (want, after)) (hr : rx = b :: rx') :
    FrameAhead c f rest (headerStep c p want after b) w rx' := by
  cases h with
  | header he' next => cases he.symm.trans he'; cases hr; exact next
  | motor | leds => cases he

theorem FrameAhead.rx_of_motorData {w : WorkFrame} {rx : List Byte} (h : FrameAhead c f rest .motorData w rx) :
    rx = f.payload ++ rest := by
  cases h with
  | header he => cases he
  | motor => rfl

theorem FrameAhead.rx_of_ledData {w : WorkFrame} {rx : List Byte} (h : FrameAhead c f rest .ledData w rx) :
    ∃ leds, f.ledData = some leds ∧ w = ⟨f.motorMode, f.m1, f.m2, f.m3, f.ledMode⟩ ∧
      rx = leds.flatMap Rgb.bytes ++ rest := by
  cases h with
  | header he => cases he
  | leds hl => exact ⟨_, hl, rfl, rfl⟩

/-- A well-formed frame with led data has LED_CUSTOM and 48 led bytes (R29, R95). -/
theorem ledBytes_of_wf {leds : List Rgb} (hf : f.Wf c) (hl : f.ledData = some leds) :
    f.ledMode = c.ledCustom ∧ (leds.flatMap Rgb.bytes).length = 48 := by
  rw [CommandFrame.Wf, hl] at hf
  exact ⟨hf.1, by rw [ledBytes_length, hf.2]⟩

theorem ledMode_ne_of_wf (hf : f.Wf c) (hl : f.ledData = none) : f.ledMode ≠ c.ledCustom := by
  rwa [CommandFrame.Wf, hl] at hf

/-! ### One iteration with a frame ahead -/

/-- The run has the frame `f` still ahead of it, or has completed it and left `rest`. -/
def DecodeRun.Brings (c : Config) (f : CommandFrame) (rest : List Byte) (d : DecodeRun) : Prop :=
  (d.frame = none ∧ FrameAhead c f rest d.pstate d.work d.rx) ∨
    (d.frame = some f ∧ d.pstate = .header1 ∧ d.rx = rest)

/-- Every iteration takes the run on towards the frame ahead (R122 to R125). -/
theorem parserStep_brings {d d' : DecodeRun} (hf : f.Wf c) (hn : d.frame = none)
    (h : FrameAhead c f rest d.pstate d.work d.rx) (hs : parserStep c d = some d') : d'.Brings c f rest := by
  rcases parserStep_cases c d with ⟨hexit, -⟩ | ⟨want, after, b, rx, he, hr, -, hstep⟩ |
    ⟨d0, d1, d2, d3, d4, rx, hp, hr, -, hstep⟩ | ⟨hp, -, -, hstep⟩
  · cases hexit.symm.trans hs
  · cases hstep.symm.trans hs
    exact .inl ⟨hn, h.of_headerStep he hr⟩
  · cases hstep.symm.trans hs
    rw [hp] at h
    cases hr.symm.trans h.rx_of_motorData
    cases hl : f.ledData with
    | none =>
      rw [if_neg (ledMode_ne_of_wf hf hl), CommandFrame.ledBytes, hl]
      exact .inr ⟨by rw [← hl], rfl, rfl⟩
    | some leds =>
      rw [if_pos (ledBytes_of_wf hf hl).1, CommandFrame.ledBytes, hl]
      exact .inl ⟨hn, .leds hl⟩
  · cases hstep.symm.trans hs
    rw [hp] at h
    obtain ⟨leds, hl, hw, hrx⟩ := h.rx_of_ledData
    have hlen := (ledBytes_of_wf hf hl).2
    rw [hrx, List.take_left' hlen, List.drop_left' hlen, ledTriples_bytes, hw, WorkFrame.toFrame, ← hl]
    exact .inr ⟨rfl, rfl, rfl⟩

/-- With a frame ahead and room for any one field, an iteration goes on: no field is longer than 48 bytes. -/
theorem parserStep_of_frameAhead {p : PState} {rx : List Byte} {w : WorkFrame} {k : Nat} (hf : f.Wf c)
    (h : FrameAhead c f rest p w rx) (hb : k + 48 ≤ c.decodeBound) :
    ∃ d', parserStep c ⟨p, rx, w, k, none⟩ = some d' := by
  cases h with
  | header he => exact ⟨_, parserStep_header he rfl (by dsimp only; omega)⟩
  | motor => exact ⟨_, parserStep_motor rfl rfl (by dsimp only; omega)⟩
  | leds hl =>
    refine ⟨_, parserStep_led rfl ?_ hb⟩
    rw [List.length_append, (ledBytes_of_wf hf hl).2]
    omega

/-! ### Calls with a frame ahead -/

theorem decodeEnd_brings (hf : f.Wf s.cfg) (h : FrameAhead s.cfg f rest s.pstate s.work s.rxFifo) :
    s.decodeEnd.Brings s.cfg f rest := by
  refine parserLoop_induction (DecodeRun.Brings s.cfg f rest) (fun d d' hd hn hs => ?_) _ _ (.inl ⟨rfl, h⟩)
  rcases hd with ⟨-, h⟩ | ⟨hsome, -⟩
  · exact parserStep_brings hf hn h hs
  · cases hn.symm.trans hsome

/-- A call with a frame ahead consumes at least one byte. -/
theorem decodeEnd_rx_length_lt (hf : f.Wf s.cfg) (hb : 48 ≤ s.cfg.decodeBound)
    (h : FrameAhead s.cfg f rest s.pstate s.work s.rxFifo) : s.decodeEnd.rx.length < s.rxFifo.length := by
  obtain ⟨d, hstep⟩ := parserStep_of_frameAhead (k := 0) hf h (by omega)
  obtain ⟨n, hpos, hle, hrx, -⟩ := parserStep_consumes hstep
  dsimp only at hle hrx
  obtain ⟨m, hm⟩ : ∃ m, s.rxFifo.length = m + 1 := ⟨s.rxFifo.length - 1, by omega⟩
  have hlen : d.rx.length = m + 1 - n := by rw [hrx, List.length_drop, hm]
  obtain ⟨-, k, -, hend, -⟩ := parserLoop_ends (c := s.cfg) m d (by omega)
  have hloop : s.decodeEnd = parserLoop s.cfg m d := by rw [State.decodeEnd, hm]; exact parserLoop_succ _ rfl hstep
  rw [hloop, hend, List.length_drop]
  omega

/-- Repeated calls stage the frame ahead, by induction on the bytes in rx_fifo (R136). -/
theorem execAll_of_frameAhead (s : State) (hf : f.Wf s.cfg) (hb : 48 ≤ s.cfg.decodeBound)
    (h : FrameAhead s.cfg f rest s.pstate s.work s.rxFifo) :
    ∃ (k : Nat) (t : State), execAll (List.replicate k .protDecode) s = .next t ∧
      t.staged = f ∧ t.stagedValid = true ∧ t.pstate = .header1 ∧ t.rxFifo = rest := by
  have hcall : exec .protDecode s = .next (s.afterDecode s.decodeEnd) := rfl
  rcases decodeEnd_brings hf h with ⟨-, hahead⟩ | ⟨hframe, hp, hrx⟩
  · have hless := decodeEnd_rx_length_lt hf hb h
    obtain ⟨k, t, hrun, hstaged⟩ := execAll_of_frameAhead (s.afterDecode s.decodeEnd)
      (by rwa [afterDecode_cfg]) (by rwa [afterDecode_cfg]) (by simpa using hahead)
    exact ⟨k + 1, t, (execAll_cons_of_next _ hcall).trans hrun, hstaged⟩
  · exact ⟨1, _, execAll_cons_of_next [] hcall, by simp [hframe], by simp [hframe], by simp [hp], by simp [hrx]⟩
termination_by s.rxFifo.length
decreasing_by rwa [afterDecode_rxFifo]

/-- Settles O32: the noise leaves the frame's bytes ahead of HEADER1, and R9 lets a call take any one field. -/
theorem repeatedDecodeReachesFrame : Obligations.RepeatedDecodeReachesFrame := by
  intro s noise rest f hwf hf hr hs
  obtain ⟨-, ⟨hbound, -⟩, -⟩ := hwf
  refine execAll_of_frameAhead s hf hbound ?_
  rw [hr, List.append_assoc]
  exact (FrameAhead.of_bytes s.work).of_noise noise s.pstate hs

end Sys2Proof.Machine
end

section
/-! PROOFS. The operations of a motor-loop unit before the duty actuation, each by its word (R80, R85) and what it makes
of its unit: MOT.SETSP (R160), MOT.SETLAW (R161), MOT.DIRECT (R167), MOT.PD (R162 to R164), MOT.PID (R165, R166) and the
current limiter MOT.CLIM (R168, R169), which never grows a command or turns its sign (R180). -/

namespace Sys2Proof.Machine

variable {c : Config} {p : MotorPorts} {u u' : MotorUnit} {i : Instr} {m : Motor} {s t : State}

/-! ### The words of a motor-loop unit -/

theorem encode_motSetsp (m : Motor) (sp : BitVec 8) :
    encode (.motSetsp m sp) = BitVec.ofNat 16 (0x8000 + 0x1000 * m.index + sp.toNat) := by
  have hunit : m.unitCode.toNat = 8 + m.index := by cases m <;> rfl
  apply BitVec.eq_of_toNat_eq
  rw [encode, commandWord_toNat, hunit, BitVec.toNat_ofNat, BitVec.toNat_ofNat]
  cases m <;> simp only [Motor.index] <;> omega

theorem encode_motSetlaw (m : Motor) (law : Law) :
    encode (.motSetlaw m law) = BitVec.ofNat 16 (0x8100 + 0x1000 * m.index + law.code.toNat) := by
  cases m <;> cases law <;> rfl

theorem encode_motTick (m : Motor) : encode (.motTick m) = BitVec.ofNat 16 (0x8200 + 0x1000 * m.index) := by
  cases m <;> rfl

theorem encode_motDirect (m : Motor) : encode (.motDirect m) = BitVec.ofNat 16 (0x8300 + 0x1000 * m.index) := by
  cases m <;> rfl

theorem encode_motPd (m : Motor) : encode (.motPd m) = BitVec.ofNat 16 (0x8400 + 0x1000 * m.index) := by
  cases m <;> rfl

theorem encode_motPid (m : Motor) : encode (.motPid m) = BitVec.ofNat 16 (0x8500 + 0x1000 * m.index) := by
  cases m <;> rfl

theorem encode_motClim (m : Motor) : encode (.motClim m) = BitVec.ofNat 16 (0x8600 + 0x1000 * m.index) := by
  cases m <;> rfl

theorem encode_motPlim (m : Motor) : encode (.motPlim m) = BitVec.ofNat 16 (0x8700 + 0x1000 * m.index) := by
  cases m <;> rfl

theorem encode_motAct (m : Motor) : encode (.motAct m) = BitVec.ofNat 16 (0x8800 + 0x1000 * m.index) := by
  cases m <;> rfl

/-- MOT.SETLAW with law 3 is no operation (R88). -/
theorem isReserved_setlaw_three (m : Motor) : isReserved (BitVec.ofNat 16 (0x8103 + 0x1000 * m.index)) = true := by
  cases m <;> rfl

/-! ### An operation whose checks hold -/

/-- An operation whose checks hold writes its unit, whatever the unit was set to before, and nothing else (R224). -/
theorem exec_setMotor_of_operation (hi : operationUnit i = some m)
    (h : u.operation s.cfg (s.ports.motor m) i = some u') : exec i (s.setMotor m u) = .next (s.setMotor m u') := by
  rw [exec_of_operationUnit hi, runMotor_of_some (u := u'), setMotor_setMotor]
  rwa [setMotor_cfg, setMotor_ports, setMotor_motor_same]

theorem exec_of_operation (hi : operationUnit i = some m)
    (h : (s.motor m).operation s.cfg (s.ports.motor m) i = some u') : exec i s = .next (s.setMotor m u') := by
  rw [← exec_setMotor_of_operation hi h, setMotor_self]

/-! ### What each operation makes of its unit -/

theorem directDuty_eq (u : MotorUnit) : u.directDuty = max (-127) (min 127 u.setpoint.toInt) :=
  clamp_eq_max_min (by decide) _

/-- A law step with a neutral setpoint, and its value 0 left in v (R162). -/
theorem withV_neutralStep (c : Config) (u : MotorUnit) :
    MotorUnit.withV (u.neutralStep c, 0) =
      if c.neutralClears = true then { u with lastError := 0, integralError := 0, acc := 0, v := 0 }
      else { u with v := 0 } := by
  unfold MotorUnit.neutralStep
  split <;> rfl

theorem opPd_of_neutral (hn : Neutral u.setpoint.toInt) : u.opPd c p = some (MotorUnit.withV (u.neutralStep c, 0)) := by
  rcases pdStep_cases c u p.measClicks with ⟨_, h⟩ | ⟨hno, _⟩ | ⟨hno, _⟩
  · rw [MotorUnit.opPd, h]; rfl
  · exact absurd hn hno
  · exact absurd hn hno

theorem opPid_of_neutral (hn : Neutral u.setpoint.toInt) :
    u.opPid c p = some (MotorUnit.withV (u.neutralStep c, 0)) := by
  rcases pidStep_cases c u p.measClicks with ⟨_, h⟩ | ⟨hno, _⟩ | ⟨hno, _⟩
  · rw [MotorUnit.opPid, h]; rfl
  · exact absurd hn hno
  · exact absurd hn hno

/-- The law stage PD with checks that hold: the floor of acc / 64 goes to v (R163, R164). -/
theorem opPd_of_checks (hn : ¬ Neutral u.setpoint.toInt) (hc : PdChecks c u p.measClicks) :
    u.opPd c p = some { u.afterPd c p.measClicks with v := (u.afterPd c p.measClicks).acc / 64 } := by
  rcases pdStep_cases c u p.measClicks with ⟨hyes, _⟩ | ⟨_, _, h⟩ | ⟨_, hno, _⟩
  · exact absurd hyes hn
  · rw [MotorUnit.opPd, h, asr_six]; rfl
  · exact absurd hc hno

/-- The law stage PID with checks that hold: the floor of acc / 64 goes to v (R165, R166). -/
theorem opPid_of_checks (hn : ¬ Neutral u.setpoint.toInt) (hc : PidChecks c u p.measClicks) :
    u.opPid c p = some { u.afterPid c p.measClicks with v := (u.afterPid c p.measClicks).acc / 64 } := by
  rcases pidStep_cases c u p.measClicks with ⟨hyes, _⟩ | ⟨_, _, h⟩ | ⟨_, hno, _⟩
  · exact absurd hyes hn
  · rw [MotorUnit.opPid, h, asr_six]; rfl
  · exact absurd hc hno

/-- The current limiter on v with checks that hold (R168, R169). -/
theorem opClim_of_checks (hc : ClimChecks c u u.v p.measCurrent) :
    u.opClim c p = some { u with
      correction := u.newCorrection c u.v p.measCurrent
      v := climOutput c u.v (u.newCorrection c u.v p.measCurrent) } := by
  rcases climStep_cases c u u.v p.measCurrent with ⟨_, h⟩ | ⟨hno, _⟩
  · rw [MotorUnit.opClim, h]; rfl
  · exact absurd hc hno

theorem newCorrection_eq (c : Config) (u : MotorUnit) (x : Int) (cur : Word) :
    u.newCorrection c x cur =
      max (-(|x| * (c.clFactor : Int))) (min 0 (u.correction + ((c.iLimit : Int) - (cur.toNat : Int)))) := by
  obtain ⟨hlo, hhi⟩ := newCorrection_bounds c u x cur
  exact clamp_eq_max_min (hlo.trans hhi) _

theorem climOutput_eq (c : Config) (x k : Int) :
    climOutput c x k = max (-127) (min 127 (x + x.sign * k.tdiv (c.iLimitScale : Int))) :=
  clamp_eq_max_min (by decide) _

/-- A correction within its bounds takes a command part of the way to 0 and no further (R180). -/
theorem climOutput_between (hs : c.clFactor ≤ c.iLimitScale) {x k : Int} (hx : -127 ≤ x ∧ x ≤ 127)
    (hk : -(|x| * (c.clFactor : Int)) ≤ k ∧ k ≤ 0) :
    0 ≤ climOutput c x k ∧ climOutput c x k ≤ x ∨ x ≤ climOutput c x k ∧ climOutput c x k ≤ 0 := by
  obtain ⟨hlo, hhi⟩ := tdiv_bounds hk.1 hk.2 (abs_nonneg x) hs
  rw [climOutput_eq]
  rcases lt_trichotomy x 0 with hneg | rfl | hpos
  · rw [abs_of_neg hneg] at hlo
    rw [Int.sign_eq_neg_one_of_neg hneg]
    omega
  · simp
  · rw [abs_of_pos hpos] at hlo
    rw [Int.sign_eq_one_of_pos hpos]
    omega

/-! ### The obligations -/

/-- Settles O35: the word is the encoder's, and the operation writes the setpoint of its unit. -/
theorem setspWritesSetpoint : Obligations.SetspWritesSetpoint := fun m sp _ =>
  ⟨encode_motSetsp m sp ▸ decodeEncodeAgree (.motSetsp m sp), exec_of_operation rfl rfl⟩

/-- Settles O36: the words are the encoder's and the reserved one, and the operation writes the law of its unit. -/
theorem setlawWritesLaw : Obligations.SetlawWritesLaw := fun m law _ =>
  ⟨encode_motSetlaw m law ▸ decodeEncodeAgree (.motSetlaw m law), isReserved_setlaw_three m, exec_of_operation rfl rfl⟩

/-- Settles O37: the word is the encoder's, and the operation leaves the clamped setpoint in v. -/
theorem directClampsSetpoint : Obligations.DirectClampsSetpoint := by
  intro m s
  refine ⟨encode_motDirect m ▸ decodeEncodeAgree (.motDirect m), ?_⟩
  rw [← directDuty_eq]
  exact exec_of_operation rfl rfl

/-- Settles O40: both laws take the same neutral step, which no check can stop. -/
theorem neutralSetpointGivesZero : Obligations.NeutralSetpointGivesZero := by
  rintro m s u rfl hn i hi
  rw [← withV_neutralStep]
  simp only [List.mem_cons, List.not_mem_nil, or_false] at hi
  rcases hi with rfl | rfl
  · exact exec_of_operation rfl (opPd_of_neutral hn)
  · exact exec_of_operation rfl (opPid_of_neutral hn)

/-- Settles O38: a neutral step, a step whose checks hold, and one abandoned by a check are the three ways. -/
theorem pdAccumulatesAndShifts : Obligations.PdAccumulatesAndShifts := by
  rintro m s u clk e a rfl rfl rfl rfl
  refine ⟨encode_motPd m ▸ decodeEncodeAgree (.motPd m),
    fun hn => neutralSetpointGivesZero m s _ rfl hn _ (by simp), fun h0 hl hh => ⟨fun hc => ?_, fun hc => ?_⟩⟩
  · rw [← clamp_eq_max_min (by decide)]
    exact exec_of_operation rfl (opPd_of_checks (not_neutral h0 hl hh) hc)
  · exact exec_of_operation_eq_none rfl (opPd_eq_none_iff.2 ⟨not_neutral h0 hl hh, hc⟩)

/-- Settles O39: a neutral step, a step whose checks hold, and one abandoned by a check are the three ways. -/
theorem pidLeaksAndCombines : Obligations.PidLeaksAndCombines := by
  rintro m s u clk e ig a rfl rfl rfl rfl rfl
  refine ⟨encode_motPid m ▸ decodeEncodeAgree (.motPid m),
    fun hn => neutralSetpointGivesZero m s _ rfl hn _ (by simp), fun h0 hl hh => ⟨fun hc => ?_, fun hc => ?_⟩⟩
  · rw [← clamp_eq_max_min (by decide)]
    exact exec_of_operation rfl (opPid_of_checks (not_neutral h0 hl hh) hc)
  · exact exec_of_operation_eq_none rfl (opPid_eq_none_iff.2 ⟨not_neutral h0 hl hh, hc⟩)

/-- Settles O42: the word is the encoder's; the checks hold and ClimStep answers, or one fails and the unit is safe. -/
theorem climFoldsCorrection : Obligations.ClimFoldsCorrection := by
  rintro m s u cur k rfl rfl rfl
  refine ⟨encode_motClim m ▸ decodeEncodeAgree (.motClim m), fun hc => ?_,
    fun hc => exec_of_operation_eq_none rfl (opClim_eq_none_iff.2 hc)⟩
  rw [← newCorrection_eq, ← climOutput_eq]
  exact exec_of_operation rfl (opClim_of_checks hc)

/-- Settles O43: the correction is within its bounds, so the new command lies between 0 and the old one. -/
theorem climNeverGrowsOrReverses : Obligations.ClimNeverGrowsOrReverses := by
  intro m s t hs hlo hhi hc ht
  have hexec : exec (.motClim m) s = _ := exec_of_operation rfl (opClim_of_checks hc)
  cases hexec.symm.trans ht
  rw [setMotor_motor_same]
  dsimp only
  rcases climOutput_between hs ⟨hlo, hhi⟩ (newCorrection_bounds s.cfg (s.motor m) (s.motor m).v _) with
    ⟨h0, hle⟩ | ⟨hle, h0⟩
  · exact ⟨abs_le_abs_of_nonneg h0 hle, mul_nonneg h0 (h0.trans hle)⟩
  · exact ⟨abs_le_abs_of_nonpos h0 hle, mul_nonneg_of_nonpos_of_nonpos h0 (hle.trans h0)⟩

end Sys2Proof.Machine
end

section
/-! PROOFS. The power limiter (R170 to R172), the duty actuation (R173, R174) and the tick (R175): a tick is its four
stages in turn, no step reverses a channel without a dead tick (R178), and a power trip holds the duties at 0 for the
decay window (R179). -/

namespace Sys2Proof.Machine

variable {c : Config} {p : MotorPorts} {u u' : MotorUnit} {i : Instr} {m : Motor} {s t : State}

/-! ### The power limiter and the actuation -/

/-- The power limiter on v (R170, R171): the sample stored, the decay counter set or counted down, v forced to 0 or
passed. -/
theorem opPlim_eq (c : Config) (p : MotorPorts) (u : MotorUnit) :
    u.opPlim c p = { u with
      ring := u.ring.set u.ringIdx.val p.measCurrent u.ringIdx.isLt
      ringIdx := u.ringIdx + 1
      decayCounter :=
        if 4 * c.pNominal < u.powerEstimate p.measCurrent p.busVoltage then c.decayMax else u.decayCounter - 1
      v := if 4 * c.pNominal < u.powerEstimate p.measCurrent p.busVoltage ∨ 0 < u.decayCounter then 0 else u.v } := by
  rcases plimStep_cases c u u.v p.measCurrent p.busVoltage with ⟨htrip, h⟩ | ⟨htrip, hdecay, h⟩ | ⟨htrip, hdecay, h⟩ <;>
    rw [MotorUnit.opPlim, h]
  · rw [if_pos htrip, if_pos (.inl htrip)]; rfl
  · rw [if_neg htrip, if_pos (.inr hdecay)]; rfl
  · have hkeep : u.decayCounter - 1 = u.decayCounter := by omega
    rw [if_neg htrip, if_neg (by omega), hkeep]; rfl

theorem deadTick_iff {d last : Direction} :
    deadTick c d last = true ↔ d ≠ last ∧ (c.deadtimeFromZero = true ∨ (d ≠ .zero ∧ last ≠ .zero)) := by
  simp [deadTick]

/-- ActStep of a command with the direction of its clamped value (R173). -/
theorem actStep_eq {x w : Int} {d : Direction} (hw : w = max (-127) (min 127 x)) (hd : d.toInt = w.sign) :
    u.actStep c x =
      if d ≠ u.lastDirection ∧ (c.deadtimeFromZero = true ∨ (d ≠ .zero ∧ u.lastDirection ≠ .zero)) then
        { u with dutyA := 0, dutyB := 0, lastDirection := d }
      else
        { u with dutyA := if 0 < w then w.toNat else 0, dutyB := if w < 0 then (-w).toNat else 0,
                 lastDirection := d } := by
  have hclamp : clamp x (-127) 127 = w := (clamp_eq_max_min (by decide) x).trans hw.symm
  have hA : (if 0 < w then w.toNat else 0) = w.toNat := by split <;> omega
  have hB : (if w < 0 then (-w).toNat else 0) = (-w).toNat := by split <;> omega
  have hcases := actStep_cases c u x
  rw [hclamp, ofSgn_eq_of_toInt hd, ← Bool.not_eq_true, deadTick_iff] at hcases
  rcases hcases with ⟨hdead, h⟩ | ⟨hlive, h⟩
  · rw [h, if_pos hdead]
  · rw [h, if_neg hlive, hA, hB]

/-- Settles O44: the word is the encoder's, and the estimate is that of the ring with the oldest sample replaced. -/
theorem plimTripsDecaysOrPasses : Obligations.PlimTripsDecaysOrPasses := by
  rintro m s u p est rfl rfl rfl
  refine ⟨encode_motPlim m ▸ decodeEncodeAgree (.motPlim m), ?_⟩
  rw [← powerEstimate_eq, ← opPlim_eq]
  exact exec_of_operation rfl rfl

/-- Settles O46: the word is the encoder's, and the operation is ActStep of v. -/
theorem actDrivesOneChannelAfterDeadTick : Obligations.ActDrivesOneChannelAfterDeadTick := by
  rintro m s u w d rfl hw hd
  refine ⟨encode_motAct m ▸ decodeEncodeAgree (.motAct m), ?_⟩
  rw [← actStep_eq hw hd]
  exact exec_of_operation rfl rfl

/-! ### The tick as its four stages -/

/-- The law operation of a unit is the law stage of its tick, with the value left in v (R164, R166, R167). -/
theorem operation_lawOperation (c : Config) (p : MotorPorts) (m : Motor) (u : MotorUnit) :
    u.operation c p (lawOperation m u.law) = (u.lawStep c p.measClicks).map MotorUnit.withV := by
  unfold MotorUnit.lawStep
  cases u.law <;> rfl

theorem opClim_withV (c : Config) (p : MotorPorts) (r : MotorUnit × Int) :
    (MotorUnit.withV r).opClim c p = (r.1.climStep c r.2 p.measCurrent).map MotorUnit.withV :=
  climStep_withV c r.1 r.2 r.2 p.measCurrent

theorem opPlim_withV (c : Config) (p : MotorPorts) (r : MotorUnit × Int) :
    (MotorUnit.withV r).opPlim c p = MotorUnit.withV (r.1.plimStep c r.2 p.measCurrent p.busVoltage) :=
  (congrArg MotorUnit.withV (plimStep_withV c r.1 r.2 r.2 p.measCurrent p.busVoltage) :)

theorem actStep_v_withV (c : Config) (r : MotorUnit × Int) :
    (MotorUnit.withV r).actStep c (MotorUnit.withV r).v = { r.1.actStep c r.2 with v := r.2 } :=
  actStep_withV c r.1 r.2 r.2

/-- A tick that completes is its law operation, MOT.CLIM, MOT.PLIM and MOT.ACT on its unit, each of which completes
(R175). -/
theorem opTick_stages (m : Motor) (h : u.opTick c p = some u') :
    ∃ u1 u2, u.operation c p (lawOperation m u.law) = some u1 ∧ u1.opClim c p = some u2 ∧
      u' = (u2.opPlim c p).actStep c (u2.opPlim c p).v := by
  rcases opTick_cases c p u with ⟨w1, x1, w2, x2, hl, hc, h'⟩ | ⟨_, h'⟩ | ⟨_, _, _, _, h'⟩ <;> cases h'.symm.trans h
  refine ⟨MotorUnit.withV (w1, x1), MotorUnit.withV (w2, x2), ?_, ?_, ?_⟩
  · rw [operation_lawOperation, hl]; rfl
  · rw [opClim_withV, hc]; rfl
  · rw [opPlim_withV, actStep_v_withV]

theorem operationUnit_lawOperation (m : Motor) (law : Law) : operationUnit (lawOperation m law) = some m := by
  cases law <;> rfl

/-- Where its checks hold, a tick completes (R15, R175). -/
theorem opTick_of_checks (h : TickChecks c u p) : ∃ u', u.opTick c p = some u' := by
  obtain ⟨u1, h1⟩ := lawStep_of_checks h.law
  refine Option.ne_none_iff_exists'.1 fun hnone => ?_
  rcases opTick_eq_none_iff.1 hnone with hl | ⟨u1', x, hl, hc⟩
  · cases hl.symm.trans h1
  · cases hl.symm.trans h1; exact hc h.clim

/-- Settles O47: the checks make the tick complete, and each stage of it is the operation of that stage. -/
theorem tickIsItsFourStages : Obligations.TickIsItsFourStages := by
  intro m s hchecks
  obtain ⟨u, hu⟩ := opTick_of_checks hchecks
  obtain ⟨u1, u2, hlaw, hclim, rfl⟩ := opTick_stages m hu
  refine ⟨encode_motTick m ▸ decodeEncodeAgree (.motTick m), _, exec_of_operation rfl hu, opTick_arithRange hu, ?_⟩
  calc execAll [lawOperation m (s.motor m).law, .motClim m, .motPlim m, .motAct m] s
      = execAll [.motClim m, .motPlim m, .motAct m] (s.setMotor m u1) :=
        execAll_cons_of_next _ (exec_of_operation (operationUnit_lawOperation m _) hlaw)
    _ = execAll [.motPlim m, .motAct m] (s.setMotor m u2) :=
        execAll_cons_of_next _ (exec_setMotor_of_operation rfl hclim)
    _ = execAll [.motAct m] (s.setMotor m (u2.opPlim s.cfg (s.ports.motor m))) :=
        execAll_cons_of_next _ (exec_setMotor_of_operation rfl rfl)
    _ = .next (s.setMotor m _) := execAll_cons_of_next [] (exec_setMotor_of_operation rfl rfl)

/-! ### No reversal without a dead tick -/

/-- After a direction of one sign the channel of the other is not driven (R178). -/
def MotorUnit.NotReversed (u u' : MotorUnit) : Prop :=
  (u.lastDirection = .positive → u'.dutyB = 0) ∧ (u.lastDirection = .negative → u'.dutyA = 0)

/-- A unit in its ranges drives no channel against its own direction. -/
theorem MotorInv.notReversed (h : MotorInv c u) (hA : u'.dutyA = u.dutyA) (hB : u'.dutyB = u.dutyB) :
    u.NotReversed u' := by
  constructor <;> intro hd
  · rw [hB]; by_contra hne; cases hd.symm.trans (h.dutyB_direction hne)
  · rw [hA]; by_contra hne; cases hd.symm.trans (h.dutyA_direction hne)

/-- A tick leaves last_direction to its actuation, which does not reverse it. -/
theorem opTick_notReversed (h : u.opTick c p = some u') : u.NotReversed u' := by
  rcases opTick_cases c p u with ⟨u1, x1, u2, x2, hl, hc, h'⟩ | ⟨_, h'⟩ | ⟨_, _, _, _, h'⟩ <;> cases h'.symm.trans h
  have hdir : (u2.plimStep c x2 p.measCurrent p.busVoltage).1.lastDirection = u.lastDirection := by
    rw [plimStep_frame, climStep_frame hc, lawStep_frame hl]
  unfold MotorUnit.NotReversed
  rw [← hdir]
  exact actStep_no_reversal c _ _

/-- No operation reverses a unit in its ranges: only MOT.ACT and MOT.TICK drive a channel. -/
theorem notReversed_of_exec (h : MotorInv s.cfg (s.motor m)) (he : exec i s = .next t) :
    (s.motor m).NotReversed (t.motor m) := by
  by_cases hi : i ∈ [Instr.motAct m, .motTick m]
  · simp only [List.mem_cons, List.not_mem_nil, or_false] at hi
    rcases hi with rfl | rfl <;> cases he
    · rw [setMotor_motor_same]; exact actStep_no_reversal _ _ _
    · rw [runMotor_eq_setMotor, setMotor_motor_same]
      cases ho : (s.motor m).opTick s.cfg (s.ports.motor m) with
      | none => exact ⟨fun _ => rfl, fun _ => rfl⟩
      | some u' => exact opTick_notReversed ho
  · obtain ⟨-, -, -, -, -, -, -, hduty⟩ := unitRegistersHaveNamedWriters i m s t _ _ he rfl rfl
    rcases hduty hi with ⟨hA, hB, -⟩ | ⟨-, hsafe⟩
    · exact h.notReversed hA hB
    · rw [hsafe]; exact ⟨fun _ => rfl, fun _ => rfl⟩

/-- Settles O59: the steps that run no operation keep the duties of a unit in its ranges or clear them. -/
theorem reversalCostsDeadTick : Obligations.ReversalCostsDeadTick := by
  intro s t m hinv ht
  rcases step_cases s with ⟨_, hs⟩ | ⟨rest, _, hs⟩ | ⟨d, rest, i, _, _, hs⟩ | ⟨d, rest, g, _, _, hs⟩
  · cases hs.symm.trans ht; exact (hinv.motors m).notReversed rfl rfl
  · cases hs.symm.trans ht; rw [resetEvent_motor]; exact ⟨fun _ => rfl, fun _ => rfl⟩
  · have hport := motor_of_port s rest d.ports s.illegalCmd m
    have hkeep := notReversed_of_exec (m := m) (hport ▸ hinv.motors m) (hs.symm.trans ht)
    rwa [hport] at hkeep
  · cases hs.symm.trans ht; rw [motor_of_port]; exact (hinv.motors m).notReversed rfl rfl

/-! ### The power limiter within a tick -/

/-- What the power limiter does in a tick that completes: it trips, decays or passes on the estimate and the decay
counter that the tick found, and the first two drive neither channel (R170, R175). -/
theorem opTick_power_cases (h : u.opTick c p = some u') :
    (4 * c.pNominal < u.powerEstimate p.measCurrent p.busVoltage ∧
      u'.decayCounter = c.decayMax ∧ u'.dutyA = 0 ∧ u'.dutyB = 0) ∨
    (¬ 4 * c.pNominal < u.powerEstimate p.measCurrent p.busVoltage ∧ 0 < u.decayCounter ∧
      u'.decayCounter = u.decayCounter - 1 ∧ u'.dutyA = 0 ∧ u'.dutyB = 0) ∨
    (¬ 4 * c.pNominal < u.powerEstimate p.measCurrent p.busVoltage ∧ u.decayCounter = 0) := by
  rcases opTick_cases c p u with ⟨u1, x1, u2, x2, hl, hc, h'⟩ | ⟨_, h'⟩ | ⟨_, _, _, _, h'⟩ <;> cases h'.symm.trans h
  have hest : u2.powerEstimate p.measCurrent p.busVoltage = u.powerEstimate p.measCurrent p.busVoltage := by
    rw [climStep_frame hc, lawStep_frame hl]; rfl
  have hcount : u2.decayCounter = u.decayCounter := by rw [climStep_frame hc, lawStep_frame hl]
  rw [← hest, ← hcount]
  rcases plimStep_cases c u2 x2 p.measCurrent p.busVoltage with ⟨htrip, hp⟩ | ⟨htrip, hdecay, hp⟩ | ⟨htrip, hdecay, -⟩
  · rw [hp]
    exact .inl ⟨htrip, by rw [actStep_frame], actStep_zero c _⟩
  · rw [hp]
    exact .inr (.inl ⟨htrip, hdecay, by rw [actStep_frame], actStep_zero c _⟩)
  · exact .inr (.inr ⟨htrip, hdecay⟩)

/-! ### A unit held at 0 -/

/-- Both duties are 0, and the decay counter keeps them there for `n` more ticks; `n` is at most DECAY_MAX, so that
another trip does not shorten the wait. -/
structure MotorUnit.Held (c : Config) (n : Nat) (u : MotorUnit) : Prop where
  le_max : n ≤ c.decayMax
  le_counter : n ≤ u.decayCounter
  duties : u.dutyA = 0 ∧ u.dutyB = 0

theorem MotorUnit.Held.mono {n k : Nat} (h : u.Held c n) (hk : k ≤ n) : u.Held c k where
  le_max := hk.trans h.le_max
  le_counter := hk.trans h.le_counter
  duties := h.duties

/-- A tick that trips holds the unit for DECAY_MAX more ticks (R170). -/
theorem held_of_trip {n : Nat} (hn : n ≤ c.decayMax)
    (htrip : 4 * c.pNominal < u.powerEstimate p.measCurrent p.busVoltage) (h : u.opTick c p = some u') :
    u'.Held c n := by
  rcases opTick_power_cases h with ⟨_, hmax, hduties⟩ | ⟨hno, _⟩ | ⟨hno, _⟩
  · exact { le_max := hn, le_counter := hmax ▸ hn, duties := hduties }
  · exact absurd htrip hno
  · exact absurd htrip hno

/-- A tick uses up one of the ticks a unit is held for, whatever is measured; abandoned, it forces the unit safe. -/
theorem MotorUnit.Held.tick {n : Nat} (h : u.Held c (n + 1)) : ((u.opTick c p).getD u.forceSafe).Held c n := by
  obtain ⟨hmax, hcounter, -⟩ := h
  cases ho : u.opTick c p with
  | none => exact { le_max := by omega, le_counter := Nat.le_of_succ_le hcounter, duties := ⟨rfl, rfl⟩ }
  | some u' =>
    rcases opTick_power_cases ho with ⟨htrip, -⟩ | ⟨-, -, hcount, hduties⟩ | ⟨-, hzero⟩
    · exact held_of_trip (by omega) htrip ho
    · exact { le_max := by omega, le_counter := by rw [Option.getD_some]; omega, duties := hduties }
    · omega

/-! ### The decay window -/

/-- How many of the command words are MOT.TICK of unit m. -/
def tickCount (m : Motor) (calls : List Issue) : Nat :=
  (calls.filter fun d => decide (d.word = encode (.motTick m))).length

theorem tickCount_cons_of_tick {d : Issue} (hd : decode d.word = .ok (.motTick m)) (calls : List Issue) :
    tickCount m (d :: calls) = tickCount m calls + 1 := by
  have hw : d.word = encode (.motTick m) := (decodedWordIsItsEncoding _ _ hd).symm
  rw [tickCount, List.filter_cons_of_pos (by simpa using hw), List.length_cons, tickCount]

theorem tickCount_le_cons (d : Issue) (calls : List Issue) : tickCount m calls ≤ tickCount m (d :: calls) :=
  ((List.sublist_cons_self d calls).filter _).length_le

/-- No operation touches the command port's queue (R60). -/
theorem pending_of_exec (he : exec i s = .next t) : t.pending = s.pending := by
  cases hi : operationUnit i with
  | some m =>
    rw [exec_of_operationUnit hi, runMotor_eq_setMotor] at he
    cases he
    rfl
  | none =>
    cases i with
    | motSetsp | motSetlaw | motTick | motDirect | motPd | motPid | motClim | motPlim | motAct => cases hi
    | crcInit | crcUpdate | protSetgate | protTxdone | sysNop | crcRead | sysStatus | protDecode => cases he; simp
    | protRxpush | protTake | protEncode => cases he; split <;> simp

/-- Every operation answers a next state (R210). -/
theorem exec_eq_next (i : Instr) (s : State) : ∃ t, exec i s = .next t := by
  cases i <;> exact ⟨_, rfl⟩

theorem core_run_succ_of_next {M : Host.Core} {x y : M.State} (h : M.step x = .next y) (k : Nat) :
    M.run (k + 1) x = M.run k y := by
  rw [Host.Core.run, h]

/-- One command word of a run: it takes the word off the port, keeps the parameters and does to each unit what its
operation does under the port values it came with; then comes the rest of the run. -/
theorem core_run_command {d : Issue} {rest : List PortEvent} (hp : s.pending = .command d :: rest)
    (hd : decode d.word = .ok i) (k : Nat) :
    ∃ s', Host.Core.run Sys2Proof.core (k + 1) s = Host.Core.run Sys2Proof.core k s' ∧
      s'.pending = rest ∧ s'.cfg = s.cfg ∧ ∀ m,
      (operationUnit i = some m ∧
        s'.motor m = ((s.motor m).operation s.cfg (d.ports.motor m) i).getD (s.motor m).forceSafe) ∨
      (operationUnit i ≠ some m ∧ s'.motor m = s.motor m) := by
  obtain ⟨s', he⟩ := exec_eq_next i { s with pending := rest, ports := d.ports }
  obtain ⟨hcfg, -⟩ := blockRegistersHaveNamedWriters _ _ _ he
  refine ⟨s', core_run_succ_of_next (M := Sys2Proof.core) ((stepRunsDecodedOperation s d rest i hp hd).trans he) k,
    pending_of_exec he, hcfg, fun m => ?_⟩
  have hunit := motor_of_exec he m
  rwa [motor_of_port s rest d.ports s.illegalCmd m] at hunit

/-- A held unit is at 0 after any command words with at most as many ticks of it as it is held for and no other
operation of it (R179), by induction on the command words. -/
theorem duties_of_held_run {rest : List PortEvent} (calls : List Issue) (hp : s.pending = calls.map .command ++ rest)
    (hcalls : ∀ d ∈ calls, ∃ i, decode d.word = .ok i ∧ (i = .motTick m ∨ operationUnit i ≠ some m))
    (hheld : (s.motor m).Held s.cfg (tickCount m calls))
    (hrun : Host.Core.run Sys2Proof.core calls.length s = .next t) : (t.motor m).dutyA = 0 ∧ (t.motor m).dutyB = 0 := by
  induction calls generalizing s with
  | nil => cases hrun; exact hheld.duties
  | cons d calls ih =>
    obtain ⟨⟨i, hd, hi⟩, hcalls⟩ := List.forall_mem_cons.1 hcalls
    obtain ⟨s', hrun', hp', hcfg, hunits⟩ := core_run_command hp hd calls.length
    refine ih hp' hcalls ?_ (hrun'.symm.trans hrun)
    rw [hcfg]
    rcases hunits m with ⟨hunit, hm⟩ | ⟨_, hm⟩ <;> rw [hm]
    · obtain rfl := hi.resolve_right (not_not.2 hunit)
      rw [tickCount_cons_of_tick hd] at hheld
      exact hheld.tick
    · exact hheld.mono (tickCount_le_cons d calls)

/-- Settles O45: under well-chosen gains the tripping tick completes and holds its unit for DECAY_MAX more ticks. -/
theorem powerTripHoldsZeroForDecayWindow : Obligations.PowerTripHoldsZeroForDecayWindow := by
  intro m s t c calls rest hw hinv hp hd htrip hcalls hcount hrun
  obtain ⟨s', hrun', hp', hcfg, hunits⟩ := core_run_command hp hd calls.length
  obtain ⟨u, hu⟩ := opTick_of_checks (tickChecks_of_wellChosen (p := c.ports.motor m) hw hinv)
  obtain ⟨-, hm⟩ := (hunits m).resolve_right fun h => h.1 rfl
  rw [MotorUnit.operation, hu, Option.getD_some] at hm
  refine duties_of_held_run calls hp' hcalls ?_ (hrun'.symm.trans hrun)
  rw [hcfg, hm]
  exact held_of_trip hcount htrip hu

end Sys2Proof.Machine
end

section
/-! PROOFS. The system operations, each by its word (R80, R84) and its effect: SYS.NOP (R200), whose other words are
reserved, and SYS.STATUS (R201), whose answer is the status word (R34) as a sum of its flags. -/

namespace Sys2Proof.Machine

variable {s : State}

/-! ### The words of the system operations -/

theorem encode_sysNop : encode .sysNop = 0x2000#16 := by decide

theorem encode_sysStatus : encode .sysStatus = 0x2100#16 := by decide

/-- Unit 2, OP 0 and an IMM8, as a number (R80, R84). -/
theorem commandWord_sysNop (imm : Byte) : commandWord 0x2#4 0x0#4 imm = BitVec.ofNat 16 (0x2000 + imm.toNat) := by
  apply BitVec.eq_of_toNat_eq
  rw [commandWord_toNat, BitVec.toNat_ofNat, BitVec.toNat_ofNat, BitVec.toNat_ofNat]
  omega

/-- SYS.NOP uses no bit of IMM8, so a word of it with any bit of IMM8 set does not decode (R87, R88). -/
theorem isReserved_sysNop {imm : Byte} (h : 1 ≤ imm.toNat) :
    isReserved (BitVec.ofNat 16 (0x2000 + imm.toNat)) = true := by
  rw [← commandWord_sysNop]
  by_contra hr
  obtain ⟨i, hd⟩ := decode_ok_iff.2 (Bool.eq_false_iff.2 hr)
  rw [decode_sysWord] at hd
  obtain ⟨rfl, -⟩ := decodePlain_eq_ok_iff.1 hd
  exact absurd h (by decide)

/-! ### Their effects -/

theorem exec_sysNop : exec .sysNop s = .next s := rfl

theorem exec_sysStatus : exec .sysStatus s = .next { s with rsp := s.statusWord } := rfl

/-! ### The status word as a sum -/

/-- A flag put below a bit string doubles what stands above it. -/
theorem toNat_append_ofBool {n : Nat} (x : BitVec n) (b : Bool) :
    (x ++ BitVec.ofBool b).toNat = x.toNat * 2 + b.toNat :=
  BitVec.toNat_concat x b

/-- The status word in numbers (R34): each flag times the value of its bit, and the pstate code times 256. -/
theorem statusWord_toNat (s : State) : s.statusWord.toNat =
    s.illegalCmd.toNat + 2 * s.rxOverflow.toNat + 4 * s.motor0.arithRange.toNat +
      8 * s.motor1.arithRange.toNat + 16 * s.motor2.arithRange.toNat + 32 * s.stagedValid.toNat +
      64 * s.txBusy.toNat + 128 * s.cmdDisabled.toNat + 256 * s.pstate.code.toNat := by
  have hcode : (0#5 ++ s.pstate.code).toNat = s.pstate.code.toNat := by rw [BitVec.toNat_append]; simp
  simp only [State.statusWord, toNat_append_ofBool, hcode]
  ring

/-- The pairs the obligation lists are the codes of R26. -/
theorem code_toNat_of_mem {p : PState} {code : Nat}
    (h : (p, code) ∈ [(PState.header1, 0), (.header2, 1), (.header3, 2), (.header4, 3), (.motorData, 4), (.ledData, 5)]) :
    p.code.toNat = code := by
  simp only [List.mem_cons, Prod.mk.injEq, List.not_mem_nil, or_false] at h
  rcases h with ⟨rfl, rfl⟩ | ⟨rfl, rfl⟩ | ⟨rfl, rfl⟩ | ⟨rfl, rfl⟩ | ⟨rfl, rfl⟩ | ⟨rfl, rfl⟩ <;> rfl

/-! ### The obligations -/

/-- Settles O48: the word is the encoder's, a word with another IMM8 sets an unused bit, and the effect is none. -/
theorem nopChangesNothing : Obligations.NopChangesNothing :=
  ⟨encode_sysNop ▸ decodeEncodeAgree .sysNop, fun _ => isReserved_sysNop, fun _ => exec_sysNop⟩

/-- Settles O49: the word is the encoder's, and the answer is the status word as the sum of its flags. -/
theorem statusAnswersEveryFlag : Obligations.StatusAnswersEveryFlag := by
  intro s code hcode
  refine ⟨encode_sysStatus ▸ decodeEncodeAgree .sysStatus, ?_⟩
  rw [exec_sysStatus, ← code_toNat_of_mem hcode, ← statusWord_toNat, BitVec.ofNat_toNat, BitVec.setWidth_eq]

end Sys2Proof.Machine
end

section
/-! PROOFS. The exceptions: no event on the command port stops the block (R210), an idle step keeps the state (R226), and
the write of one motor-loop unit, which is all a fault of that unit does, keeps every other element (R224). -/

namespace Sys2Proof.Machine

variable {s : State}

/-- With nothing on the command port the fetch gives no event, so the block idles (R226). -/
theorem step_of_pending_nil (hp : s.pending = []) : step s = .next s := by
  rw [step, State.nextEvent, hp]

/-- Every step answers a next state: an idle step, RESET and a reserved word give theirs, and an operation has one
(R210). -/
theorem step_eq_next (s : State) : ∃ t, step s = .next t := by
  rcases step_cases s with ⟨-, hidle⟩ | ⟨rest, -, hreset⟩ | ⟨c, rest, i, -, -, hrun⟩ | ⟨c, rest, g, -, -, hreserved⟩
  · exact ⟨_, hidle⟩
  · exact ⟨_, hreset⟩
  · rw [hrun]; exact exec_eq_next i _
  · exact ⟨_, hreserved⟩

/-- Putting the three units back after a write of one of them gives the old state: the write reaches no other element
(R224). -/
theorem setMotor_restore_units (s : State) (m : Motor) (u : MotorUnit) :
    { s.setMotor m u with motor0 := s.motor0, motor1 := s.motor1, motor2 := s.motor2 } = s := rfl

/-! ### The obligations -/

/-- Settles O9: with nothing pending the fetch gives no event. -/
theorem idleStepKeepsState : Obligations.IdleStepKeepsState := fun _ => step_of_pending_nil

/-- Settles O10: each kind of event on the command port has its next state. -/
theorem noStepStopsTheBlock : Obligations.NoStepStopsTheBlock := step_eq_next

/-- Settles O50: a unit read after the write is the new one or the old one, and the rest of the state is untouched. -/
theorem unitWriteTouchesOneUnit : Obligations.UnitWriteTouchesOneUnit :=
  fun s m u => ⟨fun m' => setMotor_motor s m m' u, setMotor_restore_units s m u⟩

end Sys2Proof.Machine
end

section
/-! PROOFS. RESET and power-on: RESET puts every state element at its value of R231 (R230), the state after power-on
meets the invariant, and the first tick after power-on, whose law stage gives 0, drives neither channel (R234). -/

namespace Sys2Proof.Machine

variable {c : Config} {p : MotorPorts} {u u' : MotorUnit}

/-! ### RESET and power-on -/

/-- RESET gives the elements of power-on; what it keeps besides is no state element of the block (R230, R231). -/
theorem resetValues_resetEvent (s : State) : ResetValues s.resetEvent :=
  { resetValues_resetWith s.cfg s.crcTable with }

/-- With nothing emitted, the power-on ports and nothing pending, RESET gives the state after power-on. -/
theorem resetEvent_reset : State.reset.resetEvent = State.reset := rfl

theorem reset_motor (m : Motor) : State.reset.motor m = MotorUnit.reset := resetWith_motor _ _ m

/-! ### A tick whose law stage gives 0 -/

/-- The current limiter passes a duty command of 0, whatever the correction is (R168). -/
theorem climOutput_zero (c : Config) (k : Int) : climOutput c 0 k = 0 := by
  rw [climOutput, Int.sign_zero, zero_mul, zero_add]
  rfl

theorem climStep_value_of_zero {cur : Word} {y : Int} (h : u.climStep c 0 cur = some (u', y)) : y = 0 := by
  rcases climStep_cases c u 0 cur with ⟨_, h'⟩ | ⟨_, h'⟩ <;> cases h'.symm.trans h
  exact climOutput_zero c _

/-- A tick that completes on a law value of 0 drives neither channel: both limiters pass the 0 on (R175). -/
theorem opTick_duties_of_zero {w : MotorUnit} (hlaw : u.lawStep c p.measClicks = some (w, 0))
    (h : u.opTick c p = some u') : u'.dutyA = 0 ∧ u'.dutyB = 0 := by
  rcases opTick_cases c p u with ⟨u1, x1, u2, x2, hl, hc, h'⟩ | ⟨_, h'⟩ | ⟨_, _, _, _, h'⟩ <;> cases h'.symm.trans h
  cases hl.symm.trans hlaw
  have hplim : (u2.plimStep c x2 p.measCurrent p.busVoltage).2 = 0 :=
    (plimStep_value c u2 x2 p.measCurrent p.busVoltage).elim (·.trans (climStep_value_of_zero hc)) id
  rw [hplim]
  exact actStep_zero c _

/-! ### The first tick -/

/-- At reset the law is DIRECT with setpoint 0, so the law stage gives 0 (R167, R231). -/
theorem lawStep_reset (c : Config) (clk : Word) : MotorUnit.reset.lawStep c clk = some (MotorUnit.reset, 0) := rfl

/-- At reset no check of a tick can fail: DIRECT has none, and those of the current limiter, on a value and a correction
of 0, need only I_LIMIT within its 16 bits (R9, R168). -/
theorem tickChecks_reset (hlimit : c.iLimit ≤ 65535) (p : MotorPorts) : TickChecks c MotorUnit.reset p where
  law := trivial
  clim := by
    have hvalue : lawValue c MotorUnit.reset p.measClicks = 0 := rfl
    have hcur : p.measCurrent.toNat < 65536 := p.measCurrent.isLt
    rw [hvalue, ClimChecks, abs_zero, zero_mul]
    refine ⟨by decide, ?_⟩
    show InRange32 (0 + ((c.iLimit : Int) - (p.measCurrent.toNat : Int)))
    constructor <;> omega

/-- The first tick of a unit at reset completes and drives neither channel (R234). -/
theorem opTick_reset (hlimit : c.iLimit ≤ 65535) (p : MotorPorts) :
    ∃ u', MotorUnit.reset.opTick c p = some u' ∧ u'.dutyA = 0 ∧ u'.dutyB = 0 ∧ u'.arithRange = false := by
  obtain ⟨u', hu⟩ := opTick_of_checks (tickChecks_reset hlimit p)
  obtain ⟨hA, hB⟩ := opTick_duties_of_zero (lawStep_reset c p.measClicks) hu
  exact ⟨u', hu, hA, hB, opTick_arithRange hu⟩

/-! ### The obligations -/

/-- Settles O7: the step on RESET is `State.resetEvent`, whose elements are those of power-on; the views follow. -/
theorem resetEventRestoresEveryElement : Obligations.ResetEventRestoresEveryElement := by
  intro s rest hp
  have hstep : step s = .next ({ s with pending := rest } : State).resetEvent := by rw [step, State.nextEvent, hp]
  have h := resetValues_resetEvent { s with pending := rest }
  exact ⟨_, hstep, h, rfl, rfl, rfl, h.statusWord_eq, h.frameReady_eq⟩

/-- Settles O57: power-on is the outcome of a RESET, which establishes the invariant. -/
theorem powerOnStateMeetsInvariant : Obligations.PowerOnStateMeetsInvariant := by
  unfold Obligations.PowerOnStateMeetsInvariant
  rw [← resetEvent_reset]
  exact resetEvent_inv State.reset

/-- Settles O60: every unit is at reset after power-on, and I_LIMIT meets R9. -/
theorem firstTickAfterPowerOnIsSafe : Obligations.FirstTickAfterPowerOnIsSafe := by
  intro m p
  obtain ⟨-, -, -, ⟨hlimit, -⟩, -⟩ := block_wf
  obtain ⟨u, hu, hduties⟩ := opTick_reset hlimit (p.motor m)
  let s : State := { State.reset with ports := p }
  have hunit : s.motor m = MotorUnit.reset := reset_motor m
  have hop : (s.motor m).operation s.cfg (s.ports.motor m) (.motTick m) = some u := by rw [hunit]; exact hu
  exact ⟨_, exec_of_operation rfl hop, by rw [setMotor_motor_same]; exact hduties⟩

end Sys2Proof.Machine
end
